-- ==== Sys2Proof/Word.lean ====
section
/-! DEFINITION. The byte and the block (spec 00_scope R11): a block is a sequence of bytes, index 0 first, and no
rule of the core ever reads one as a number (20_memory R60). -/

namespace Sys2Proof

/-- An unsigned 8-bit value (R11). -/
abbrev Byte := BitVec 8

/-- A finite sequence of bytes, index 0 first (R11, R60). -/
abbrev Block := List Byte

end Sys2Proof
end

