-- ==== Sys2Proof/Syntax.lean ====
section
/-! DEFINITION. The commands of the core, one constructor per row of spec/opcode_table.json (30_encoding R90 to R101).
All data operands are implicit (R94); what a constructor carries are the command bits its row leaves open. -/

namespace Sys2Proof

/-- The direction of a call, the field `DIR` (R91). -/
inductive Dir where
  | encrypt
  | decrypt
deriving DecidableEq, Repr

/-- D0's closed mode tag (R92); also the values of `EMODE` (10_state R32). The reserved code is no mode. -/
inductive Mode where
  | plain
  | cbc
  | cfb
deriving DecidableEq, Repr

/-- One constructor per row of the opcode table. `ivp` is the bit `IVP` where the row leaves it open; a row of illegal
commands keeps the byte that was latched, `WellFormed` saying that the byte lies in the row. -/
inductive Instr where
  /-- `0000v000`, R171 -/
  | plainEnc (ivp : Bool)
  /-- `0000v001`, R172 -/
  | plainDec (ivp : Bool)
  /-- `00000010`, R154 -/
  | cbcEncNoIv
  /-- `00000011`, R154 -/
  | cbcDecNoIv
  /-- `00000100`, R154 -/
  | cfbEncNoIv
  /-- `00000101`, R154 -/
  | cfbDecNoIv
  /-- `00001010`, R191 -/
  | cbcEnc
  /-- `00001011`, R201 -/
  | cbcDec
  /-- `00001100`, R221 -/
  | cfbEnc
  /-- `00001101`, R231 -/
  | cfbDec
  /-- `0000v11d`, R152 -/
  | illegalMode (code : BitVec 8)
  /-- `1xxxxxxx`, R152 -/
  | illegalRsv7 (code : BitVec 8)
  /-- `01xxxxxx`, R152 -/
  | illegalRsv6 (code : BitVec 8)
  /-- `001xxxxx`, R152 -/
  | illegalRsv5 (code : BitVec 8)
  /-- `0001xxxx`, R152 -/
  | illegalRsv4 (code : BitVec 8)
deriving DecidableEq, Repr

end Sys2Proof
end

