-- ==== Sys2Proof/Config.lean ====
section
/-! DEFINITION. What is fixed for one machine and is not state (00_scope R8, 10_state R22): the block size, the buffer
capacity, the block transform, and the values the spec leaves unspecified. Each is a constant with no body: nothing can
be proved about it that does not hold for every value. An `Env` bundles them, so that every operation of the machine is
written for ANY environment and a worked example of the spec can be run in one. -/

namespace Sys2Proof

/-- The direction the core asks of the transform unit (40_datapath R120, R121; codes 30_encoding R98). -/
inductive TDir where
  | fwd
  | inv
deriving DecidableEq, Repr

/-- The answer of one transform invocation (R120): `Ok(block)` or `Fail`. -/
inductive XAnswer where
  | ok (r : Block)
  | fail
deriving DecidableEq, Repr, Inhabited

/-- The places whose contents the spec leaves unspecified (R40, 93 U3 to U5), each with what its value may depend on:
how many resets came before, the index, and, for the output buffer, all that the core has written there. -/
inductive FreePlace where
  | iv (epoch j : Nat)
  | ibufData (epoch i j : Nat)
  | obuf (epoch olen : Nat) (written : List (Nat × Byte)) (k : Nat)
deriving DecidableEq, Repr

/-- One environment: the OPEN parameters of R8, and the free values. -/
structure Env where
  /-- `BS - 1`: the block size is at least 1 (R8) -/
  bsMinusOne : Nat
  /-- `NBMAX`, or `none` where it is unbounded (R8) -/
  nbmax : Option Nat
  /-- `Xform`, a total function (R120, 92 D27) -/
  xform : TDir → Block → XAnswer
  /-- a byte the spec leaves unspecified -/
  freeByte : FreePlace → Byte
  /-- `IBUF[i].LEN` as it stands after the `epoch`-th reset -/
  freeLen : Nat → Nat → Nat

/-- `BS`, the one common block size in bytes (R8). -/
def Env.bs (e : Env) : Nat := e.bsMinusOne + 1

namespace Config

/-- `BS - 1` (OPEN, R8, 92 D2; log 1). -/
opaque bsMinusOne : Nat

/-- `NBMAX` (OPEN, R8, 92 D3; log 1). -/
opaque nbmax : Option Nat

/-- `Xform` (OPEN, R8, R120; log 2). -/
opaque xform : TDir → Block → XAnswer

/-- The bytes the spec leaves unspecified (R40, U3 to U5; logs 3, 4, 5). -/
opaque freeByte : FreePlace → Byte

/-- The lengths the spec leaves unspecified after reset (R40; log 4). -/
opaque freeLen : Nat → Nat → Nat

/-- The environment of the machine. -/
def env : Env where
  bsMinusOne := bsMinusOne
  nbmax := nbmax
  xform := xform
  freeByte := freeByte
  freeLen := freeLen

end Config

end Sys2Proof
end

