-- ==== Sys2Proof/Machine/State.lean ====
section
/-! DEFINITION. The state of one instance of the core (10_state R20), the fields the model adds (named below as its
own), the reasons a step can stop, and the state after reset (R40, 70_reset R290). -/

namespace Sys2Proof.Machine

/-- The state of the shared state machine (10_state R30). -/
inductive Phase where
  | idle
  | init
  | proc
  | done
deriving DecidableEq, Repr

/-- The causes of an abort (60_exceptions R250, R251). `ERR = NONE` is the absence of one. -/
inductive Cause where
  | transformFailure
  | lengthMismatch
  | illegalCommand
deriving DecidableEq, Repr

/-- A byte buffer: (index, byte) pairs, indexes strictly rising. An unlisted index holds no value: nothing has written
it since reset (R40). -/
abbrev Memory := List Host.Cell

/-- One entry of the input block buffer (20_memory R62): the length field and the data bytes. `none` and an unlisted
index: not written since reset. -/
structure InEntry where
  len : Option Nat
  data : Memory
deriving DecidableEq, Repr

/-- One transform invocation (10_state R39): direction, input block, answer. -/
structure XEvent where
  tdir : TDir
  input : Block
  answer : XAnswer
deriving DecidableEq, Repr

/-- The numbered host registers (10_state R38). -/
inductive HostReg where
  | cmd
  | status
  | err
  | nblk
  | bidx
  | olen
  | dispatch
  | reserved
deriving DecidableEq, Repr

/-- One host write (R38): a whole register, a byte of `IV`, a field or a byte of `IBUF`. -/
inductive HostWrite where
  | reg (r : HostReg) (v : Nat)
  | iv (j : Nat) (b : Byte)
  | ibufLen (i n : Nat)
  | ibufData (i j : Nat) (b : Byte)
deriving DecidableEq, Repr

/-- One host read (R38). -/
inductive HostRead where
  | reg (r : HostReg)
  | iv (j : Nat)
  | ibufLen (i : Nat)
  | ibufData (i j : Nat)
  | obuf (k : Nat)
deriving DecidableEq, Repr

/-- What the outside does next: a host write, a reset (70_reset R290), letting the core take one step, or waiting until
`STATUS.DONE = 1` (30_encoding R103). -/
inductive HostEvent where
  | write (w : HostWrite)
  | reset
  | core
  | wait
deriving DecidableEq, Repr

/-- The state. The first sixteen fields are the spec's (R20); the last four are the model's own. -/
structure State where
  /-- `CMD`, 8 bits (R23) -/
  cmd : BitVec 8
  /-- `IV`, BS bytes (R24) -/
  iv : Block
  /-- `NBLK` (R25) -/
  nblk : Nat
  /-- `IBUF`: (block index, entry) pairs, indexes strictly rising (R26, R62) -/
  ibuf : List (Nat × InEntry)
  /-- `CHAIN`, BS bytes (R27) -/
  chain : Block
  /-- `CLEN` (R28) -/
  clen : Nat
  /-- `EMODE` (R32) -/
  emode : Mode
  /-- `PHASE` (R30) -/
  phase : Phase
  /-- `BIDX` (R31) -/
  bidx : Nat
  /-- `OBUF` (R34) -/
  obuf : Memory
  /-- `OLEN` (R34) -/
  olen : Nat
  /-- `STATUS.OK` (R35) -/
  ok : Bool
  /-- `STATUS.FAIL` (R35) -/
  fail : Bool
  /-- `STATUS.DGR` (R35) -/
  dgr : Bool
  /-- `ERR`; `none` is `NONE` (R36) -/
  err : Option Cause
  /-- MODEL: the transform event sequence of the current or last call, oldest first (R39) -/
  xlog : List XEvent
  /-- MODEL: the indexes of `IV` the host has not written since reset (R294, U3) -/
  ivUnwritten : List Nat
  /-- MODEL: the events from outside that are still to come, next first (R103, R290) -/
  host : List HostEvent
  /-- MODEL: how many resets have happened, the argument of the free values of unspecified contents (R40) -/
  epoch : Nat
deriving DecidableEq, Repr

/-- `RESULT` (10_state R37). -/
inductive CallResult where
  | notYet
  | absent
  | present (out : Block)
deriving DecidableEq, Repr

/-- What `BlockRead` meets (20_memory R64, R65; 93 U3): an entry never written since reset, a reserved length, a
block. -/
inductive BlockIn where
  | unwritten
  | reserved
  | block (b : Block)
deriving DecidableEq, Repr

/-- How an engine ends with one block (40_datapath R128): a result and, where the engine chains, the new chaining
block; or a raised cause. -/
inductive Verdict where
  | ok (out : Block) (chain : Option Block)
  | raise (cause : Cause)
deriving DecidableEq, Repr

/-- One engine on one block: the transform invocations it made and how it ended. -/
structure EngineRun where
  events : List XEvent
  verdict : Verdict
deriving DecidableEq, Repr

/-- How a whole call ends (40_datapath R131): a present result, or an absent one with its cause and the index of the
block it stopped at. -/
inductive CallEnd where
  | present (out : Block)
  | absent (cause : Cause) (index : Nat)
deriving DecidableEq, Repr

/-- Why the machine is stuck. The spec's own faults are no `Fault`: they are next states (60_exceptions R256). -/
inductive Fault where
  /-- raised by the sequencer's step selection when `PHASE = PROC` and `BIDX > NBLK`: R127 enables no step there and
  R31 says it never happens; safe, and unreachable from reset -/
  | noStepEnabled
deriving DecidableEq, Repr

/-- Why a step is given no meaning. -/
inductive Refusal where
  /-- an instruction with no meaning yet; raised by `exec`'s arms alone; safe -/
  | notModelled (mnemonic : String)
  /-- raised by the INIT step and the per-block steps when the call reads an `IV` or an `IBUF` entry that nothing has
  written since reset: 'a model refuses such a call' (R294, and R40, U3, D19, D26, vector H7; which step: log 17); safe -/
  | neverWrittenInput
  /-- raised by a host access at an index R38 does not give: refuse (U16); safe -/
  | noSuchAccess
  /-- raised by a host write of a value its register cannot hold: refuse (U15, R25); safe -/
  | notRepresentable
deriving DecidableEq, Repr

/-- The state after the `epoch`-th reset in this environment: every field as R40 says, the unspecified bytes of `IV`
free values, `IBUF` and `OBUF` with nothing written. -/
def State.resetAt (e : Env) (epoch : Nat) : State where
  cmd := 0x00#8
  iv := (List.range e.bs).map fun j => e.freeByte (.iv epoch j)
  nblk := 0
  ibuf := []
  chain := List.replicate e.bs 0x00#8
  clen := 0
  emode := .plain
  phase := .idle
  bidx := 0
  obuf := []
  olen := 0
  ok := false
  fail := false
  dgr := false
  err := none
  xlog := []
  ivUnwritten := List.range e.bs
  host := []
  epoch := epoch

/-- The machine right after reset (R40, R290). -/
def State.reset : State := State.resetAt Config.env 0

end Sys2Proof.Machine
end

