-- ==== Sys2Proof/Machine/Ops.lean ====
section
/-! DEFINITION. The named operations over buffers and registers: reading and writing a buffer, the byte-wise XOR, the
output append, the chaining register, the counters, and the three operations that begin and end a call: START, the
finish step, and the abort sequence, which is how this core takes an exception. -/

namespace Sys2Proof.Machine

/-- The shape of a step. -/
abbrev Out := Host.Outcome State Fault Refusal

/-! ### Buffers: sorted lists of (index, value) pairs -/

/-- What index `a` holds, if anything has written it. -/
def cellRead {α : Type} : List (Nat × α) → Nat → Option α
  | [], _ => none
  | (k, v) :: rest, a => if k = a then some v else cellRead rest a

/-- Write index `a`, keeping the indexes strictly rising. -/
def cellWrite {α : Type} : List (Nat × α) → Nat → α → List (Nat × α)
  | [], a, v => [(a, v)]
  | (k, w) :: rest, a, v =>
    if a < k then (a, v) :: (k, w) :: rest
    else if a = k then (a, v) :: rest
    else (k, w) :: cellWrite rest a v

/-- Write the bytes of `v` at `a`, `a + 1`, … -/
def writeBytes : Memory → Nat → Block → Memory
  | m, _, [] => m
  | m, a, b :: rest => writeBytes (cellWrite m a b) (a + 1) rest

/-- Read `n` bytes from `a` on; `none` where one of them was never written. -/
def readBytes (m : Memory) : Nat → Nat → Option Block
  | _, 0 => some []
  | a, n + 1 =>
    match cellRead m a, readBytes m (a + 1) n with
    | some b, some rest => some (b :: rest)
    | _, _ => none

/-- The canonical form of a byte buffer: indexes strictly rising. No cell can equal what an unlisted index reads as,
which is no value. -/
abbrev Memory.wf (m : Memory) : Prop := List.Pairwise (fun x y => x.1 < y.1) m

/-- The entry of an input block nothing has written; an unlisted block index reads as it. -/
def emptyEntry : InEntry := { len := none, data := [] }

/-- The entry of `IBUF` at block index `i` (R62). -/
def entryAt (ibuf : List (Nat × InEntry)) (i : Nat) : InEntry := (cellRead ibuf i).getD emptyEntry

/-- The canonical form of `IBUF`: block indexes strictly rising, each entry's bytes in canonical form, no entry equal
to the entry nothing has written. -/
abbrev ibufWf (ibuf : List (Nat × InEntry)) : Prop :=
  List.Pairwise (fun x y => x.1 < y.1) ibuf ∧ ∀ x ∈ ibuf, Memory.wf x.2.data ∧ x.2 ≠ emptyEntry

/-! ### Ranges (R20, R25, R38) -/

/-- How many values the field `LEN` can hold: the minimum width for `0..BS` (30_encoding R99; log 11). -/
def lenLimit (e : Env) : Nat := 2 ^ (Nat.log2 e.bs + 1)

/-- `0 ≤ i < NBMAX`. -/
def blockExists (e : Env) (i : Nat) : Bool :=
  match e.nbmax with
  | none => true
  | some n => decide (i < n)

/-- `n` is a value `NBLK` can hold: `0..NBMAX` (R25). -/
def countFits (e : Env) (n : Nat) : Bool :=
  match e.nbmax with
  | none => true
  | some m => decide (n ≤ m)

/-- `0 ≤ k < OMAX`, with `OMAX = NBMAX × BS` (R8, R69). -/
def outputExists (e : Env) (k : Nat) : Bool :=
  match e.nbmax with
  | none => true
  | some n => decide (k < n * e.bs)

/-! ### The XOR (40_datapath R123) -/

/-- `XorPrefix(a, b, n)`: byte `j` of the result is `a[j] XOR b[j]`, for `j < n`. -/
def xorPrefix (a b : Block) (n : Nat) : Block := List.zipWith (fun x y => x ^^^ y) (a.take n) (b.take n)

/-! ### Registers -/

/-- `CHAIN[0:CLEN]`, the chaining state (R27). -/
def State.chainBlock (s : State) : Block := s.chain.take s.clen

/-- `CHAIN[0:len(c)] <- c ; CLEN <- len(c)` (R191, R201, R221, R231). -/
def State.setChain (c : Block) (s : State) : State :=
  { s with chain := c ++ s.chain.drop c.length, clen := c.length }

/-- `Append(v)` (20_memory R67). -/
def State.append (v : Block) (s : State) : State :=
  { s with obuf := writeBytes s.obuf s.olen v, olen := s.olen + v.length }

/-- `BIDX <- BIDX + 1` (R31, R128). -/
def State.advance (s : State) : State := { s with bidx := s.bidx + 1 }

/-- Record transform invocations in the event sequence (R39). -/
def State.logEvents (events : List XEvent) (s : State) : State := { s with xlog := s.xlog ++ events }

/-- `CHAIN <- all bytes 0x00 ; CLEN <- 0`: the chaining state is discarded (R29). -/
def State.discardChain (e : Env) (s : State) : State :=
  { s with chain := List.replicate e.bs 0x00#8, clen := 0 }

/-! ### The byte a buffer shows: the stored one, or a free value -/

/-- Byte `k` of `OBUF`: what the core wrote, or a free value where it wrote nothing (R34, U4). -/
def State.obufByte (e : Env) (s : State) (k : Nat) : Byte :=
  (cellRead s.obuf k).getD (e.freeByte (.obuf s.epoch s.olen s.obuf k))

/-- `OBUF[0:OLEN]`, the output stream (R34). -/
def State.output (e : Env) (s : State) : Block := (List.range s.olen).map (s.obufByte e)

/-- `RESULT` (10_state R37). -/
def State.result (e : Env) (s : State) : CallResult :=
  match s.phase with
  | .done => if s.ok then .present (s.output e) else .absent
  | .idle => .notYet
  | .init => .notYet
  | .proc => .notYet

/-! ### The beginning and the two ends of a call -/

/-- START's writes (40_datapath R126). The event sequence is that of one call, so it begins empty (R39). -/
def State.start (v : BitVec 8) (s : State) : State :=
  { s with cmd := v, ok := false, fail := false, dgr := false, err := none, phase := .init, xlog := [] }

/-- The finish step's writes (40_datapath R129). -/
def State.finish (e : Env) (s : State) : State :=
  { s.discardChain e with ok := true, phase := .done }

/-- The abort sequence, `raise <cause>` (60_exceptions R256): the one way this core takes an exception. There is no
handler and no return (R260): the next START clears what it wrote. -/
def State.abort (e : Env) (cause : Cause) (s : State) : State :=
  { s.discardChain e with err := some cause, fail := true, ok := false, olen := 0, phase := .done }

end Sys2Proof.Machine
end

