-- ==== Sys2Proof/Machine/Operands.lean ====
section
/-! DEFINITION. The operands of a command, all of them implicit (30_encoding R94): the input block of the step
(20_memory R64), the chaining state, the initialization vector, and the block sequence of a call. -/

namespace Sys2Proof.Machine

/-- `BlockRead(i)` (20_memory R64, R65; 93 U3): a reserved length before any data byte is read. -/
def State.blockRead (e : Env) (s : State) (i : Nat) : BlockIn :=
  match (entryAt s.ibuf i).len with
  | none => .unwritten
  | some n =>
    if n > e.bs then .reserved
    else
      match readBytes (entryAt s.ibuf i).data 0 n with
      | none => .unwritten
      | some b => .block b

/-- The `IV` as a call reads it: all BS bytes, or nothing where a byte of it was never written (20_memory R70, 93 U3).
-/
def State.ivRead (s : State) : Option Block :=
  match s.ivUnwritten with
  | [] => some s.iv
  | _ :: _ => none

/-- The blocks `IBUF[i], …, IBUF[i + n - 1]`, where every one of them can be read (R25, R64). -/
def State.blocksFrom (e : Env) (s : State) : Nat → Nat → Option (List Block)
  | _, 0 => some []
  | i, n + 1 =>
    match s.blockRead e i, State.blocksFrom e s (i + 1) n with
    | .block b, some rest => some (b :: rest)
    | _, _ => none

/-- The block sequence of the call, `IBUF[0], …, IBUF[NBLK - 1]` (R25). -/
def State.blocks (e : Env) (s : State) : Option (List Block) := s.blocksFrom e 0 s.nblk

end Sys2Proof.Machine
end

