-- ==== Sys2Proof/Machine/CbcEngine.lean ====
section
/-! DEFINITION. The CBC engine (43_cbc_engine R190 to R203). -/

namespace Sys2Proof.Machine

/-- `CBC.ENC`, per-block step (R191): XOR with the chaining state, forward transform, the answer is the output and the
new chaining state. The length check comes before the transform (60_exceptions R259). -/
def cbcEncBlock (e : Env) (chain p : Block) : EngineRun :=
  if p.length > chain.length then { events := [], verdict := .raise .lengthMismatch }
  else
    let x := xorPrefix p chain p.length
    let a := e.xform .fwd x
    { events := [{ tdir := .fwd, input := x, answer := a }]
      verdict :=
        match a with
        | .fail => .raise .transformFailure
        | .ok c => if c.length > e.bs then .raise .lengthMismatch else .ok c (some c) }

/-- `CBC.DEC`, per-block step (R201): inverse transform, XOR over the chaining state's length; the new chaining state
is the received ciphertext block. -/
def cbcDecBlock (e : Env) (chain c : Block) : EngineRun :=
  let a := e.xform .inv c
  { events := [{ tdir := .inv, input := c, answer := a }]
    verdict :=
      match a with
      | .fail => .raise .transformFailure
      | .ok d =>
        if d.length ≠ chain.length then .raise .lengthMismatch
        else .ok (xorPrefix d chain chain.length) (some c) }

end Sys2Proof.Machine
end

