-- ==== Sys2Proof/Machine/CfbEngine.lean ====
section
/-! DEFINITION. The CFB engine (44_cfb_engine R220 to R235): in both directions the FORWARD transform of the chaining
state is the keystream (R233, CFB-FORWARD-ONLY). -/

namespace Sys2Proof.Machine

/-- The keystream of one block XORed with the data block, the part R221 and R231 share; `next` gives the
new chaining state from the XOR's result. -/
def cfbBlock (e : Env) (chain b : Block) (next : Block → Block) : EngineRun :=
  let a := e.xform .fwd chain
  { events := [{ tdir := .fwd, input := chain, answer := a }]
    verdict :=
      match a with
      | .fail => .raise .transformFailure
      | .ok k =>
        if k.length > e.bs then .raise .lengthMismatch
        else if b.length > k.length then .raise .lengthMismatch
        else .ok (xorPrefix b k b.length) (some (next (xorPrefix b k b.length))) }

/-- `CFB.ENC`, per-block step (R221): the new chaining state is the ciphertext just made. -/
def cfbEncBlock (e : Env) (chain p : Block) : EngineRun := cfbBlock e chain p fun c => c

/-- `CFB.DEC`, per-block step (R231): the new chaining state is the received ciphertext. -/
def cfbDecBlock (e : Env) (chain c : Block) : EngineRun := cfbBlock e chain c fun _ => c

end Sys2Proof.Machine
end

