-- ==== Sys2Proof/Machine/PlainEngine.lean ====
section
/-! DEFINITION. The Plain engine (42_plain_engine R170 to R173): one transform per block, no chaining. -/

namespace Sys2Proof.Machine

/-- One block of the Plain engine in the direction `tdir`: the 'identical algorithm' of both its commands (R170). -/
def plainBlock (e : Env) (tdir : TDir) (b : Block) : EngineRun :=
  let a := e.xform tdir b
  { events := [{ tdir := tdir, input := b, answer := a }]
    verdict :=
      match a with
      | .fail => .raise .transformFailure
      | .ok r => if r.length > e.bs then .raise .lengthMismatch else .ok r none }

/-- `PLAIN.ENC`, per-block step (R171). It reads no chaining state. -/
def plainEncBlock (e : Env) (_chain p : Block) : EngineRun := plainBlock e .fwd p

/-- `PLAIN.DEC`, per-block step (R172). It reads no chaining state. -/
def plainDecBlock (e : Env) (_chain c : Block) : EngineRun := plainBlock e .inv c

end Sys2Proof.Machine
end

