-- ==== Sys2Proof/WellFormed.lean ====
section
/-! DEFINITION. Which instruction terms stand for a command: the byte an illegal row carries lies in that row
(spec/opcode_table.json, 30_encoding R101). The legal rows carry nothing that could be wrong. -/

namespace Sys2Proof

/-- `code` lies in the row with this mask and match. -/
def inRow (mask pattern code : BitVec 8) : Bool := (code &&& mask) == pattern

/-- The checks, one for each row that keeps the latched byte. -/
def WellFormed : Instr → Bool
  | .plainEnc _ => true
  | .plainDec _ => true
  | .cbcEncNoIv => true
  | .cbcDecNoIv => true
  | .cfbEncNoIv => true
  | .cfbDecNoIv => true
  | .cbcEnc => true
  | .cbcDec => true
  | .cfbEnc => true
  | .cfbDec => true
  | .illegalMode code => inRow 0xF6#8 0x06#8 code
  | .illegalRsv7 code => inRow 0x80#8 0x80#8 code
  | .illegalRsv6 code => inRow 0xC0#8 0x40#8 code
  | .illegalRsv5 code => inRow 0xE0#8 0x20#8 code
  | .illegalRsv4 code => inRow 0xF0#8 0x10#8 code

end Sys2Proof
end

