-- ==== Sys2Proof/Decode.lean ====
section
/-! DEFINITION. From the command byte to an instruction and back (30_encoding R90 to R102). One command is one byte
(R102), and every byte is in exactly one row of the table (R101). -/

namespace Sys2Proof

/-- Why a list of bytes holds no command. -/
inductive DecodeRefusal where
  /-- there is no byte to decode; safe (nothing is given a meaning) -/
  | noCommandByte
deriving DecidableEq, Repr

/-- The field `DIR`, bit 0 (R91). -/
def dirOf (code : BitVec 8) : Dir := if code.getLsbD 0 then .decrypt else .encrypt

/-- The field `IVP`, bit 3 (R93). -/
def ivpOf (code : BitVec 8) : Bool := code.getLsbD 3

/-- The field `MODE`, bits 2:1 (R92); `none` is the reserved code. -/
def modeOf (code : BitVec 8) : Option Mode :=
  match code.getLsbD 2, code.getLsbD 1 with
  | false, false => some .plain
  | false, true => some .cbc
  | true, false => some .cfb
  | true, true => none

/-- R95 (1): a command is legal when `CMD[7:4] = 0000` and `MODE` is not the reserved code. -/
def legalCode (code : BitVec 8) : Bool := (code &&& 0xF0#8) == 0#8 && (modeOf code).isSome

/-- The command with these three fields, for the rows with `RSV = 0000` and a mode (the table of R100). -/
def legalInstr (ivp : Bool) (mode : Mode) (dir : Dir) : Instr :=
  match mode, dir, ivp with
  | .plain, .encrypt, v => .plainEnc v
  | .plain, .decrypt, v => .plainDec v
  | .cbc, .encrypt, false => .cbcEncNoIv
  | .cbc, .decrypt, false => .cbcDecNoIv
  | .cfb, .encrypt, false => .cfbEncNoIv
  | .cfb, .decrypt, false => .cfbDecNoIv
  | .cbc, .encrypt, true => .cbcEnc
  | .cbc, .decrypt, true => .cbcDec
  | .cfb, .encrypt, true => .cfbEnc
  | .cfb, .decrypt, true => .cfbDec

/-- The decoder of one command byte, total: the reserved bits first, highest first, then the reserved mode (R95,
R101). -/
def decodeCmd (code : BitVec 8) : Instr :=
  if code.getLsbD 7 then .illegalRsv7 code
  else if code.getLsbD 6 then .illegalRsv6 code
  else if code.getLsbD 5 then .illegalRsv5 code
  else if code.getLsbD 4 then .illegalRsv4 code
  else
    match modeOf code with
    | none => .illegalMode code
    | some mode => legalInstr (ivpOf code) mode (dirOf code)

/-- The decoder of a list of bytes: one command and the bytes after it. -/
def decodeBytes : List Byte → Except DecodeRefusal (Instr × List Byte)
  | [] => .error .noCommandByte
  | b :: rest => .ok (decodeCmd b, rest)

/-- The encoder: the byte of each row of the table (R100, R103 (an assembler's choice of `IVP` is the term's)). -/
def encode : Instr → BitVec 8
  | .plainEnc ivp => if ivp then 0x08#8 else 0x00#8
  | .plainDec ivp => if ivp then 0x09#8 else 0x01#8
  | .cbcEncNoIv => 0x02#8
  | .cbcDecNoIv => 0x03#8
  | .cfbEncNoIv => 0x04#8
  | .cfbDecNoIv => 0x05#8
  | .cbcEnc => 0x0A#8
  | .cbcDec => 0x0B#8
  | .cfbEnc => 0x0C#8
  | .cfbDec => 0x0D#8
  | .illegalMode code => code
  | .illegalRsv7 code => code
  | .illegalRsv6 code => code
  | .illegalRsv5 code => code
  | .illegalRsv4 code => code

/-- The bytes of an instruction as the host writes them: one byte (R102). -/
def encodeBytes (i : Instr) : List Byte := [encode i]

/-- The `n` lowest bytes of `w`, lowest first. -/
def bytesOf : Nat → Nat → List Byte
  | 0, _ => []
  | n + 1, w => BitVec.ofNat 8 w :: bytesOf n (w / 256)

/-- How many bytes a table row of `nbits` bits takes: at least the one byte of a command. -/
def tableBytes (nbits : Nat) : Nat := max 1 ((nbits + 7) / 8)

/-- The instruction the decoder reads from the bits `w` of a table row: the whole word, nothing left over. -/
def decodeTableWord (nbits w : Nat) : Option Instr :=
  match decodeBytes (bytesOf (tableBytes nbits) (w % 2 ^ nbits)) with
  | .ok (i, []) => some i
  | .ok (_, _ :: _) => none
  | .error _ => none

end Sys2Proof
end

