-- ==== Sys2Proof/Machine/Flags.lean ====
section
/-! DEFINITION. What is computed from a command and from the status bits: the effective mode, the downgrade flag, the
transform direction, and the words the host reads (10_state R33 to R36, 30_encoding R95 to R98). -/

namespace Sys2Proof.Machine

/-- R95 (2): the effective mode is Plain when the IV is absent. -/
def effectiveMode (mode : Mode) (ivp : Bool) : Mode := if ivp then mode else .plain

/-- R95 (3): the downgrade flag. -/
def downgraded (mode : Mode) (ivp : Bool) : Bool := !ivp && decide (mode ≠ .plain)

/-- `TDIR` (10_state R33, 40_datapath R121): the inverse transform for a Plain or CBC decryption, else the forward
one. -/
def tdirOf (mode : Mode) (dir : Dir) : TDir :=
  match mode, dir with
  | .plain, .encrypt => .fwd
  | .plain, .decrypt => .inv
  | .cbc, .encrypt => .fwd
  | .cbc, .decrypt => .inv
  | .cfb, .encrypt => .fwd
  | .cfb, .decrypt => .fwd

/-- `TDIR` of a state: from `EMODE` and `CMD.DIR` (R33). -/
def State.tdir (s : State) : TDir := tdirOf s.emode (dirOf s.cmd)

/-- `STATUS.BUSY` (R35). -/
def State.busy (s : State) : Bool :=
  match s.phase with
  | .idle => false
  | .init => true
  | .proc => true
  | .done => false

/-- `STATUS.DONE` (R35). -/
def State.isDone (s : State) : Bool :=
  match s.phase with
  | .idle => false
  | .init => false
  | .proc => false
  | .done => true

/-- The codes of `MODE` and `EMODE` (30_encoding R92). -/
def modeCode : Mode → BitVec 2
  | .plain => 0b00#2
  | .cbc => 0b01#2
  | .cfb => 0b10#2

/-- The codes of `TDIR` (30_encoding R98). -/
def tdirCode : TDir → BitVec 1
  | .fwd => 0#1
  | .inv => 1#1

/-- The codes of `PHASE` (30_encoding R96). -/
def phaseCode : Phase → BitVec 2
  | .idle => 0b00#2
  | .init => 0b01#2
  | .proc => 0b10#2
  | .done => 0b11#2

/-- The cause codes (60_exceptions R251). -/
def causeCode : Option Cause → BitVec 2
  | none => 0b00#2
  | some .transformFailure => 0b01#2
  | some .lengthMismatch => 0b10#2
  | some .illegalCommand => 0b11#2

/-- The word `STATUS` (30_encoding R97): bits 0 to 4 are BUSY, DONE, OK, FAIL, DGR; the rest read as 0. -/
def State.status (s : State) : BitVec 8 :=
  0#3 ++ BitVec.ofBool s.dgr ++ BitVec.ofBool s.fail ++ BitVec.ofBool s.ok ++ BitVec.ofBool s.isDone
    ++ BitVec.ofBool s.busy

/-- The word `ERR` (30_encoding R98). -/
def State.errWord (s : State) : BitVec 8 := 0#6 ++ causeCode s.err

/-- The word `DISPATCH` (30_encoding R98, 10_state R36): `EMODE` in bits 1:0, `TDIR` in bit 2, whatever the phase. -/
def State.dispatch (s : State) : BitVec 8 := 0#5 ++ tdirCode s.tdir ++ modeCode s.emode

end Sys2Proof.Machine
end

