-- ==== Sys2Proof/Machine/Selector.lean ====
section
/-! DEFINITION. The mode selector and IV dispatcher: the INIT step (41_mode_selector R150 to R156). -/

namespace Sys2Proof.Machine

/-- What the INIT step of a legal command writes whatever the effective mode (R153). -/
def State.select (mode : Mode) (ivp : Bool) (s : State) : State :=
  { s with
    emode := effectiveMode mode ivp
    dgr := downgraded mode ivp
    bidx := 0
    olen := 0
    phase := .proc }

/-- `CHAIN <- IV ; CLEN <- BS` (20_memory R70). -/
def State.loadChain (e : Env) (iv : Block) (s : State) : State := { s with chain := iv, clen := e.bs }

/-- INIT step, legal command (R153). `IV` is read only where the effective mode chains. Where a byte of it was never
written since reset the spec gives the call no behaviour: 'a model refuses such a call rather than give it a result'
(R294; R40, U3, D19, D26; vector H7, 'refused by a model'). -/
def initLegal (e : Env) (mode : Mode) (ivp : Bool) (s : State) : Out :=
  match effectiveMode mode ivp with
  | .plain => .next (s.select mode ivp)
  | .cbc =>
    match s.ivRead with
    | some iv => .next ((s.select mode ivp).loadChain e iv)
    | none => .refused .neverWrittenInput
  | .cfb =>
    match s.ivRead with
    | some iv => .next ((s.select mode ivp).loadChain e iv)
    | none => .refused .neverWrittenInput

/-- INIT step, illegal command (R152): the three writes before the `raise` stand (00_scope R13), then the abort. -/
def initIllegal (e : Env) (s : State) : Out :=
  .next (State.abort e .illegalCommand { s with emode := .plain, bidx := 0, dgr := false })

/-- The INIT step of a command whose mode field is `mode` (`none`: the command is illegal). -/
def initStep (e : Env) (mode : Option Mode) (ivp : Bool) (s : State) : Out :=
  match mode with
  | none => initIllegal e s
  | some m => initLegal e m ivp s

end Sys2Proof.Machine
end

