-- ==== Sys2Proof/Machine/Sequencer.lean ====
section
/-! DEFINITION. The shared state machine (40_datapath R127 to R130): step selection, the common shape of a per-block
step, and how the latched command chooses. -/

namespace Sys2Proof.Machine

/-- The per-block rule chosen by `(EMODE, CMD.DIR)` (R127). -/
def engineFor (mode : Mode) (dir : Dir) : Env → Block → Block → EngineRun :=
  match mode, dir with
  | .plain, .encrypt => plainEncBlock
  | .plain, .decrypt => plainDecBlock
  | .cbc, .encrypt => cbcEncBlock
  | .cbc, .decrypt => cbcDecBlock
  | .cfb, .encrypt => cfbEncBlock
  | .cfb, .decrypt => cfbDecBlock

/-- The chaining update of a block, where the engine makes one (R128; the Plain engine makes none, R170). -/
def State.chainTo (c : Option Block) (s : State) : State :=
  match c with
  | none => s
  | some c => s.setChain c

/-- What an engine's verdict does to the state (R128): a raised cause performs the abort sequence and nothing else of
the block; a result is appended, the chaining state updated, the index advanced. -/
def applyRun (e : Env) (r : EngineRun) (s : State) : State :=
  match r.verdict with
  | .raise cause => (s.logEvents r.events).abort e cause
  | .ok out chain => (((s.logEvents r.events).append out).chainTo chain).advance

/-- The per-block step (R128): read the block at `BIDX`, run the engine on it, apply the verdict. A block never written
since reset: 'a model refuses such a call rather than give it a result' (R294; R40, U3, D19, D26; vector H7). -/
def blockStep (e : Env) (engine : Env → Block → Block → EngineRun) (s : State) : Out :=
  match s.blockRead e s.bidx with
  | .unwritten => .refused .neverWrittenInput
  | .reserved => .next (s.abort e .lengthMismatch)
  | .block b => .next (applyRun e (engine e s.chainBlock b) s)

/-- The sequencer's step while a command is latched (R127), the command given by its decoded fields (`mode = none`: an
illegal command). In IDLE and DONE no step is enabled: the core waits and the state stays (R127, R130; log 7). -/
def sequencerStep (e : Env) (mode : Option Mode) (ivp : Bool) (dir : Dir) (s : State) : Out :=
  match s.phase with
  | .idle => .next s
  | .done => .next s
  | .init => initStep e mode ivp s
  | .proc =>
    if s.bidx = s.nblk then .next (s.finish e)
    else if s.bidx < s.nblk then blockStep e (engineFor s.emode dir) s
    else .fault .noStepEnabled

end Sys2Proof.Machine
end

