-- ==== Sys2Proof/Machine/Cbc.lean ====
section
/-! DEFINITION. The meanings of `CBC.ENC` and `CBC.DEC` (43_cbc_engine R191, R201): the sequencer's step while the
command is latched. -/

namespace Sys2Proof.Machine

/-- `CBC.ENC` (R191). -/
def execCbcEnc (s : State) : Out := sequencerStep Config.env (some .cbc) true .encrypt s

/-- `CBC.DEC` (R201). -/
def execCbcDec (s : State) : Out := sequencerStep Config.env (some .cbc) true .decrypt s

end Sys2Proof.Machine
end

