-- ==== Sys2Proof/Machine/Cfb.lean ====
section
/-! DEFINITION. The meanings of `CFB.ENC` and `CFB.DEC` (44_cfb_engine R221, R231): the sequencer's step while the
command is latched. -/

namespace Sys2Proof.Machine

/-- `CFB.ENC` (R221). -/
def execCfbEnc (s : State) : Out := sequencerStep Config.env (some .cfb) true .encrypt s

/-- `CFB.DEC` (R231). -/
def execCfbDec (s : State) : Out := sequencerStep Config.env (some .cfb) true .decrypt s

end Sys2Proof.Machine
end

