-- ==== Sys2Proof/Machine/Illegal.lean ====
section
/-! DEFINITION. The meanings of the illegal commands (30_encoding R101, 41_mode_selector R152): the INIT step raises
`IllegalCommand` and the call ends. In `PHASE = PROC`, which no illegal command reaches, step selection is R127's,
which asks for `EMODE` and `CMD.DIR` alone (log 15). -/

namespace Sys2Proof.Machine

/-- `ILLEGAL.MODE`, codes 0x06, 0x07, 0x0E, 0x0F (R152). -/
def execIllegalMode (code : BitVec 8) (s : State) : Out := sequencerStep Config.env none (ivpOf code) (dirOf code) s

/-- `ILLEGAL.RSV7`, codes 0x80 to 0xFF (R152). -/
def execIllegalRsv7 (code : BitVec 8) (s : State) : Out := sequencerStep Config.env none (ivpOf code) (dirOf code) s

/-- `ILLEGAL.RSV6`, codes 0x40 to 0x7F (R152). -/
def execIllegalRsv6 (code : BitVec 8) (s : State) : Out := sequencerStep Config.env none (ivpOf code) (dirOf code) s

/-- `ILLEGAL.RSV5`, codes 0x20 to 0x3F (R152). -/
def execIllegalRsv5 (code : BitVec 8) (s : State) : Out := sequencerStep Config.env none (ivpOf code) (dirOf code) s

/-- `ILLEGAL.RSV4`, codes 0x10 to 0x1F (R152). -/
def execIllegalRsv4 (code : BitVec 8) (s : State) : Out := sequencerStep Config.env none (ivpOf code) (dirOf code) s

end Sys2Proof.Machine
end

