-- ==== Sys2Proof/Machine/Plain.lean ====
section
/-! DEFINITION. The meanings of the commands whose effective mode is Plain: `PLAIN.ENC`, `PLAIN.DEC` (42_plain_engine
R171, R172; an IV supplied is ignored, R155) and the four commands without an IV, which the selector downgrades
(41_mode_selector R154). Each is the sequencer's step while that command is latched. -/

namespace Sys2Proof.Machine

/-- `PLAIN.ENC` (R171). -/
def execPlainEnc (ivp : Bool) (s : State) : Out := sequencerStep Config.env (some .plain) ivp .encrypt s

/-- `PLAIN.DEC` (R172). -/
def execPlainDec (ivp : Bool) (s : State) : Out := sequencerStep Config.env (some .plain) ivp .decrypt s

/-- `CBC.ENC.NOIV` (R154). -/
def execCbcEncNoIv (s : State) : Out := sequencerStep Config.env (some .cbc) false .encrypt s

/-- `CBC.DEC.NOIV` (R154). -/
def execCbcDecNoIv (s : State) : Out := sequencerStep Config.env (some .cbc) false .decrypt s

/-- `CFB.ENC.NOIV` (R154). -/
def execCfbEncNoIv (s : State) : Out := sequencerStep Config.env (some .cfb) false .encrypt s

/-- `CFB.DEC.NOIV` (R154). -/
def execCfbDecNoIv (s : State) : Out := sequencerStep Config.env (some .cfb) false .decrypt s

end Sys2Proof.Machine
end

