-- ==== Sys2Proof/Machine/Dispatch.lean ====
section
/-! DEFINITION. One arm per command: the sequencer's step while that command is latched. -/

namespace Sys2Proof.Machine

def exec (i : Instr) (s : State) : Host.Outcome State Fault Refusal :=
  match i with
  | .plainEnc ivp => Sys2Proof.Machine.execPlainEnc ivp s
  | .plainDec ivp => Sys2Proof.Machine.execPlainDec ivp s
  | .cbcEncNoIv => Sys2Proof.Machine.execCbcEncNoIv s
  | .cbcDecNoIv => Sys2Proof.Machine.execCbcDecNoIv s
  | .cfbEncNoIv => Sys2Proof.Machine.execCfbEncNoIv s
  | .cfbDecNoIv => Sys2Proof.Machine.execCfbDecNoIv s
  | .cbcEnc => Sys2Proof.Machine.execCbcEnc s
  | .cbcDec => Sys2Proof.Machine.execCbcDec s
  | .cfbEnc => Sys2Proof.Machine.execCfbEnc s
  | .cfbDec => Sys2Proof.Machine.execCfbDec s
  | .illegalMode code => Sys2Proof.Machine.execIllegalMode code s
  | .illegalRsv7 code => Sys2Proof.Machine.execIllegalRsv7 code s
  | .illegalRsv6 code => Sys2Proof.Machine.execIllegalRsv6 code s
  | .illegalRsv5 code => Sys2Proof.Machine.execIllegalRsv5 code s
  | .illegalRsv4 code => Sys2Proof.Machine.execIllegalRsv4 code s

end Sys2Proof.Machine
end

