-- ==== Sys2Proof/Machine/HostPort.lean ====
section
/-! DEFINITION. The host's side of the core: the register map and the three buffers (10_state R38), START, reset
(70_reset R290), the program notation of 30_encoding R103, and which agent moves next. -/

namespace Sys2Proof.Machine

/-! ### The register map -/

/-- The register with this number (R38). -/
def hostRegOf : Nat → Option HostReg
  | 0 => some .cmd
  | 1 => some .status
  | 2 => some .err
  | 3 => some .nblk
  | 4 => some .bidx
  | 5 => some .olen
  | 6 => some .dispatch
  | 7 => some .reserved
  | _ => none

/-- What a register reads as (R38, R97 to R99); register 7 reads 0. -/
def State.readReg (s : State) : HostReg → Nat
  | .cmd => s.cmd.toNat
  | .status => s.status.toNat
  | .err => s.errWord.toNat
  | .nblk => s.nblk
  | .bidx => s.bidx
  | .olen => s.olen
  | .dispatch => s.dispatch.toNat
  | .reserved => 0

/-- Byte `j` of `IV` as the host reads it: what was written, or the free value it holds since reset (R24). -/
def State.ivByte (s : State) (j : Nat) : Byte := s.iv.getD j 0x00#8

/-- `IBUF[i].LEN` as the host reads it: what was written, or a free value its field can hold (R26, R99). -/
def State.ibufLenRead (e : Env) (s : State) (i : Nat) : Nat :=
  (entryAt s.ibuf i).len.getD (e.freeLen s.epoch i % lenLimit e)

/-- `IBUF[i].DATA[j]` as the host reads it: what was written, or a free value (R26). -/
def State.ibufByte (e : Env) (s : State) (i j : Nat) : Byte :=
  (cellRead (entryAt s.ibuf i).data j).getD (e.freeByte (.ibufData s.epoch i j))

/-- `OBUF[k]` as the host reads it: below `OLEN` what the core appended, at and above it any value (R34, U4, U5). -/
def State.obufRead (e : Env) (s : State) (k : Nat) : Byte :=
  if k < s.olen then s.obufByte e k else e.freeByte (.obuf s.epoch s.olen s.obuf k)

/-- One host read: allowed in every phase (20_memory R75), without side effect (R71); an index outside R38's ranges is
refused (U16). -/
def hostRead (e : Env) (r : HostRead) (s : State) : Except Refusal Nat :=
  match r with
  | .reg r => .ok (s.readReg r)
  | .iv j => if j < e.bs then .ok (s.ivByte j).toNat else .error .noSuchAccess
  | .ibufLen i => if blockExists e i then .ok (s.ibufLenRead e i) else .error .noSuchAccess
  | .ibufData i j =>
    if blockExists e i && decide (j < e.bs) then .ok (s.ibufByte e i j).toNat else .error .noSuchAccess
  | .obuf k => if outputExists e k then .ok (s.obufRead e k).toNat else .error .noSuchAccess

/-! ### Host writes -/

/-- Why a host write cannot be made at all, in any phase: no such index (U16), or a value its register cannot hold
(U15). -/
def writeRefusal (e : Env) : HostWrite → Option Refusal
  | .reg .cmd v => if v < 2 ^ 8 then none else some .notRepresentable
  | .reg .nblk v => if countFits e v then none else some .notRepresentable
  | .reg .status _ => none
  | .reg .err _ => none
  | .reg .bidx _ => none
  | .reg .olen _ => none
  | .reg .dispatch _ => none
  | .reg .reserved _ => none
  | .iv j _ => if j < e.bs then none else some .noSuchAccess
  | .ibufLen i n =>
    if blockExists e i then (if n < lenLimit e then none else some .notRepresentable) else some .noSuchAccess
  | .ibufData i j _ => if blockExists e i && decide (j < e.bs) then none else some .noSuchAccess

/-- Change the entry of `IBUF` at `i`. -/
def State.updateEntry (i : Nat) (f : InEntry → InEntry) (s : State) : State :=
  { s with ibuf := cellWrite s.ibuf i (f (entryAt s.ibuf i)) }

/-- The effect of an accepted write (R38): a write of `CMD` is START (R126); a read-only register keeps its value
(log 10); register 7 ignores writes. -/
def State.applyWrite (w : HostWrite) (s : State) : State :=
  match w with
  | .reg .cmd v => s.start (BitVec.ofNat 8 v)
  | .reg .nblk v => { s with nblk := v }
  | .reg .status _ => s
  | .reg .err _ => s
  | .reg .bidx _ => s
  | .reg .olen _ => s
  | .reg .dispatch _ => s
  | .reg .reserved _ => s
  | .iv j b => { s with iv := s.iv.set j b, ivUnwritten := s.ivUnwritten.filter fun k => decide (k ≠ j) }
  | .ibufLen i n => s.updateEntry i fun en => { en with len := some n }
  | .ibufData i j b => s.updateEntry i fun en => { en with data := cellWrite en.data j b }

/-- One host write: accepted in IDLE and DONE, ignored with no fault and no flag while busy (R38, 92 D17). -/
def hostWrite (e : Env) (w : HostWrite) (s : State) : Out :=
  match writeRefusal e w with
  | some r => .refused r
  | none => if s.busy then .next s else .next (s.applyWrite w)

/-- The reset event (70_reset R290, R291), in any state: every field at R40's value, the unspecified ones at fresh free
values. The host's pending events are outside the core and stay. -/
def State.resetEvent (e : Env) (s : State) : State :=
  { State.resetAt e (s.epoch + 1) with host := s.host }

/-! ### Which agent moves next -/

/-- One step of the whole: the next host event where one is pending, else the sequencer. `run i` is the sequencer's step
while command `i` is latched. An event `core` lets the sequencer take one step; `wait` lets it run until
`STATUS.DONE = 1` (R103). -/
def stepBy (e : Env) (run : Instr → State → Out) (s : State) : Out :=
  match s.host with
  | [] => run (decodeCmd s.cmd) s
  | .write w :: rest => hostWrite e w { s with host := rest }
  | .reset :: rest => .next (State.resetEvent e { s with host := rest })
  | .core :: rest => run (decodeCmd s.cmd) { s with host := rest }
  | .wait :: rest => if s.isDone then .next { s with host := rest } else run (decodeCmd s.cmd) s

/-! ### The fields of a command, and the machine in any environment -/

/-- The requested mode of a command; `none` for an illegal one (R95). -/
def instrMode : Instr → Option Mode
  | .plainEnc _ => some .plain
  | .plainDec _ => some .plain
  | .cbcEncNoIv => some .cbc
  | .cbcDecNoIv => some .cbc
  | .cfbEncNoIv => some .cfb
  | .cfbDecNoIv => some .cfb
  | .cbcEnc => some .cbc
  | .cbcDec => some .cbc
  | .cfbEnc => some .cfb
  | .cfbDec => some .cfb
  | .illegalMode _ => none
  | .illegalRsv7 _ => none
  | .illegalRsv6 _ => none
  | .illegalRsv5 _ => none
  | .illegalRsv4 _ => none

/-- The `IVP` bit of a command. -/
def instrIvp (i : Instr) : Bool := ivpOf (encode i)

/-- The `DIR` bit of a command. -/
def instrDir (i : Instr) : Dir := dirOf (encode i)

/-- The sequencer's step while command `i` is latched, in any environment; `exec` is it in the machine's own. -/
def execIn (e : Env) (i : Instr) (s : State) : Out :=
  sequencerStep e (instrMode i) (instrIvp i) (instrDir i) s

/-- The whole machine's step in any environment. -/
def stepIn (e : Env) (s : State) : Out := stepBy e (execIn e) s

/-! ### Programs of host actions (30_encoding R103) -/

/-- The writes `w 0 b₀, w 1 b₁, …` of a list of bytes, the first at index `j`. -/
def writesFrom (w : Nat → Byte → HostWrite) : Nat → Block → List HostEvent
  | _, [] => []
  | j, b :: rest => .write (w j b) :: writesFrom w (j + 1) rest

/-- `IV <hex bytes>`. -/
def progIv (b : Block) : List HostEvent := writesFrom .iv 0 b

/-- `BLOCK <i> <hex bytes>`. -/
def progBlock (i : Nat) (b : Block) : List HostEvent :=
  .write (.ibufLen i b.length) :: writesFrom (.ibufData i) 0 b

/-- `NBLK <n>`. -/
def progNblk (n : Nat) : List HostEvent := [.write (.reg .nblk n)]

/-- `START <mnemonic>`. -/
def progStart (i : Instr) : List HostEvent := [.write (.reg .cmd (encode i).toNat)]

/-- `WAIT`. -/
def progWait : List HostEvent := [.wait]

/-! ### Placing a command to be run next -/

/-- Does the INIT step of this command read `IV`? (R294 (3)) -/
def readsIv (code : BitVec 8) : Bool :=
  match instrMode (decodeCmd code) with
  | none => false
  | some m => decide (effectiveMode m (ivpOf code) ≠ .plain)

/-- The host's part before a first step of a command: `IV` counts as written where the command reads it (R294), the
command is STARTed (R126), and the host waits (R103). See log 14. -/
def State.placeCommand (code : BitVec 8) (s : State) : State :=
  { s.start code with
    ivUnwritten := if readsIv code then [] else s.ivUnwritten
    host := .wait :: s.host }

end Sys2Proof.Machine
end

