-- ==== Sys2Proof/Machine/Step.lean ====
section
/-! DEFINITION. One step of the machine, and where the next command is placed. -/

namespace Sys2Proof.Machine

/-- One step: the pending host event, else the sequencer's step of the latched command. -/
def step (s : State) : Host.Outcome State Fault Refusal := stepBy Config.env exec s

/-- The state with the command whose table bits are `w` latched and next to run (log 14). -/
def State.withFetchWord (s : State) (nbits w : Nat) : State :=
  s.placeCommand (BitVec.ofNat 8 (w % 2 ^ nbits))

end Sys2Proof.Machine
end

