-- ==== Sys2Proof/Laws/Memory.lean ====
section
/-! SUPPORT. The laws of the byte buffers: a read after a write, the canonical form kept by every write, the range of
the indexes a buffer lists. -/

namespace Sys2Proof.Machine

section cells

variable {α : Type}

@[simp] theorem cellRead_nil (a : Nat) : cellRead ([] : List (Nat × α)) a = none := rfl

theorem cellRead_write_same (m : List (Nat × α)) (a : Nat) (v : α) : cellRead (cellWrite m a v) a = some v := by
  induction m with
  | nil => simp [cellWrite, cellRead]
  | cons x rest ih =>
    obtain ⟨k, w⟩ := x
    simp only [cellWrite]
    split
    · simp [cellRead]
    · split
      · simp [cellRead]
      · have : k ≠ a := fun h => by subst h; omega
        simp [cellRead, this, ih]

theorem cellRead_write_other (m : List (Nat × α)) {a b : Nat} (v : α) (h : a ≠ b) :
    cellRead (cellWrite m a v) b = cellRead m b := by
  induction m with
  | nil => simp [cellWrite, cellRead, h]
  | cons x rest ih =>
    obtain ⟨k, w⟩ := x
    simp only [cellWrite]
    split
    · simp [cellRead, h]
    · split
      · rename_i h2
        subst h2
        simp [cellRead, h]
      · simp [cellRead, ih]

/-- What a buffer holds after one write. -/
theorem cellRead_write (m : List (Nat × α)) (a b : Nat) (v : α) :
    cellRead (cellWrite m a v) b = if a = b then some v else cellRead m b := by
  split
  · rename_i h
    subst h
    exact cellRead_write_same m a v
  · rename_i h
    exact cellRead_write_other m v h

theorem mem_cellWrite {m : List (Nat × α)} {a : Nat} {v : α} {x : Nat × α} (h : x ∈ cellWrite m a v) :
    x = (a, v) ∨ x ∈ m := by
  induction m with
  | nil => simpa [cellWrite] using h
  | cons y rest ih =>
    obtain ⟨k, w⟩ := y
    simp only [cellWrite] at h
    split at h
    · simpa using h
    · split at h
      · simp only [List.mem_cons] at h ⊢
        tauto
      · simp only [List.mem_cons] at h ⊢
        rcases h with h | h
        · exact .inr (.inl h)
        · exact (ih h).imp id .inr

/-- A write keeps the indexes strictly rising. -/
theorem pairwise_cellWrite {m : List (Nat × α)} (a : Nat) (v : α)
    (h : List.Pairwise (fun x y => x.1 < y.1) m) : List.Pairwise (fun x y => x.1 < y.1) (cellWrite m a v) := by
  induction m with
  | nil => simp [cellWrite]
  | cons y rest ih =>
    obtain ⟨k, w⟩ := y
    rw [List.pairwise_cons] at h
    obtain ⟨hk, hr⟩ := h
    simp only [cellWrite]
    split
    · rename_i hlt
      refine List.pairwise_cons.2 ⟨fun z hz => ?_, List.pairwise_cons.2 ⟨hk, hr⟩⟩
      rcases List.mem_cons.1 hz with rfl | hz
      · exact hlt
      · exact Nat.lt_trans hlt (hk z hz)
    · split
      · rename_i _ heq
        subst heq
        exact List.pairwise_cons.2 ⟨hk, hr⟩
      · refine List.pairwise_cons.2 ⟨fun z hz => ?_, ih hr⟩
        rcases mem_cellWrite hz with rfl | hz
        · simp only
          omega
        · exact hk z hz

theorem cellRead_mem {m : List (Nat × α)} {a : Nat} {v : α} (h : cellRead m a = some v) : (a, v) ∈ m := by
  induction m with
  | nil => simp at h
  | cons x rest ih =>
    obtain ⟨k, w⟩ := x
    simp only [cellRead] at h
    split at h
    · rename_i hk
      subst hk
      cases h
      exact List.mem_cons_self ..
    · exact List.mem_cons_of_mem _ (ih h)

end cells

/-- The canonical form is kept by a byte write. -/
theorem Memory.wf_cellWrite {m : Memory} (a : Nat) (b : Byte) (h : Memory.wf m) : Memory.wf (cellWrite m a b) :=
  pairwise_cellWrite a b h

/-- The canonical form is kept by a write of several bytes. -/
theorem Memory.wf_writeBytes {m : Memory} (a : Nat) (v : Block) (h : Memory.wf m) : Memory.wf (writeBytes m a v) := by
  induction v generalizing m a with
  | nil => exact h
  | cons b rest ih => exact ih (a + 1) (Memory.wf_cellWrite a b h)

/-- What a buffer holds after a write of several bytes: those bytes at `a, a + 1, …`, the rest as before. -/
theorem cellRead_writeBytes (m : Memory) (a k : Nat) (v : Block) :
    cellRead (writeBytes m a v) k = if a ≤ k ∧ k < a + v.length then v[k - a]? else cellRead m k := by
  induction v generalizing m a with
  | nil =>
    have : ¬ (a ≤ k ∧ k < a + ([] : Block).length) := by simp
    rw [if_neg this]
    rfl
  | cons b rest ih =>
    simp only [writeBytes, ih, cellRead_write, List.length_cons]
    by_cases hak : a = k
    · subst hak
      simp
    · by_cases hin : a + 1 ≤ k ∧ k < a + 1 + rest.length
      · have hin' : a ≤ k ∧ k < a + (rest.length + 1) := by omega
        have hk : k - a = (k - (a + 1)) + 1 := by omega
        rw [if_pos hin, if_pos hin', hk, List.getElem?_cons_succ]
      · have hin' : ¬ (a ≤ k ∧ k < a + (rest.length + 1)) := by omega
        rw [if_neg hin, if_neg hin', if_neg hak]

theorem mem_writeBytes {m : Memory} {a : Nat} {v : Block} {x : Host.Cell} (h : x ∈ writeBytes m a v) :
    x ∈ m ∨ (a ≤ x.1 ∧ x.1 < a + v.length) := by
  induction v generalizing m a with
  | nil => exact .inl h
  | cons b rest ih =>
    simp only [List.length_cons]
    rcases ih h with h | h
    · rcases mem_cellWrite h with rfl | h
      · exact .inr ⟨Nat.le_refl _, by simp⟩
      · exact .inl h
    · exact .inr ⟨by omega, by omega⟩

/-- A block read has the length asked for. -/
theorem length_of_readBytes {m : Memory} {a n : Nat} {b : Block} (h : readBytes m a n = some b) : b.length = n := by
  induction n generalizing a b with
  | zero =>
    simp only [readBytes, Option.some.injEq] at h
    simp [← h]
  | succ n ih =>
    simp only [readBytes] at h
    split at h
    · rename_i h2
      cases h
      simp [ih h2]
    · cases h

/-- A block that is read is the bytes the buffer holds, in index order. -/
theorem readBytes_getElem {m : Memory} {a n : Nat} {b : Block} (h : readBytes m a n = some b) (j : Nat) (hj : j < n) :
    cellRead m (a + j) = b[j]? := by
  induction n generalizing a b j with
  | zero => omega
  | succ n ih =>
    simp only [readBytes] at h
    split at h
    · rename_i h1 h2
      cases h
      cases j with
      | zero => simpa using h1
      | succ j =>
        rw [List.getElem?_cons_succ, ← ih h2 j (by omega), show a + (j + 1) = a + 1 + j by omega]
    · cases h

/-- `IBUF`'s canonical form is kept by writing an entry that is not the empty one. -/
theorem ibufWf_write {ibuf : List (Nat × InEntry)} (i : Nat) (en : InEntry) (h : ibufWf ibuf)
    (hd : Memory.wf en.data) (hne : en ≠ emptyEntry) : ibufWf (cellWrite ibuf i en) := by
  refine ⟨pairwise_cellWrite i en h.1, fun x hx => ?_⟩
  rcases mem_cellWrite hx with rfl | hx
  · exact ⟨hd, hne⟩
  · exact h.2 x hx

/-- The buffers right after reset are in canonical form. -/
theorem reset_buffers_wf : Memory.wf State.reset.obuf ∧ ibufWf State.reset.ibuf := by
  refine ⟨List.Pairwise.nil, List.Pairwise.nil, fun x hx => ?_⟩
  cases hx

/-- The bytes of any entry, written or not, are in canonical form. -/
theorem entryAt_wf {ibuf : List (Nat × InEntry)} (i : Nat) (h : ibufWf ibuf) : Memory.wf (entryAt ibuf i).data := by
  unfold entryAt
  cases hr : cellRead ibuf i with
  | none => exact List.Pairwise.nil
  | some en => exact (h.2 (i, en) (cellRead_mem hr)).1

theorem cellWrite_ne_nil {α : Type} (m : List (Nat × α)) (a : Nat) (v : α) : cellWrite m a v ≠ [] := by
  intro h
  have := cellRead_write_same m a v
  simp [h] at this

end Sys2Proof.Machine
end

