-- ==== Sys2Proof/Laws/State.lean ====
section
/-! SUPPORT. One lemma per field per state update, so that no later proof unfolds a record update. -/

namespace Sys2Proof.Machine

section setChain

variable (s : State) (c : Block)

@[simp] theorem State.setChain_cmd : (s.setChain c).cmd = s.cmd := rfl
@[simp] theorem State.setChain_iv : (s.setChain c).iv = s.iv := rfl
@[simp] theorem State.setChain_nblk : (s.setChain c).nblk = s.nblk := rfl
@[simp] theorem State.setChain_ibuf : (s.setChain c).ibuf = s.ibuf := rfl
@[simp] theorem State.setChain_chain : (s.setChain c).chain = c ++ s.chain.drop c.length := rfl
@[simp] theorem State.setChain_clen : (s.setChain c).clen = c.length := rfl
@[simp] theorem State.setChain_emode : (s.setChain c).emode = s.emode := rfl
@[simp] theorem State.setChain_phase : (s.setChain c).phase = s.phase := rfl
@[simp] theorem State.setChain_bidx : (s.setChain c).bidx = s.bidx := rfl
@[simp] theorem State.setChain_obuf : (s.setChain c).obuf = s.obuf := rfl
@[simp] theorem State.setChain_olen : (s.setChain c).olen = s.olen := rfl
@[simp] theorem State.setChain_ok : (s.setChain c).ok = s.ok := rfl
@[simp] theorem State.setChain_fail : (s.setChain c).fail = s.fail := rfl
@[simp] theorem State.setChain_dgr : (s.setChain c).dgr = s.dgr := rfl
@[simp] theorem State.setChain_err : (s.setChain c).err = s.err := rfl
@[simp] theorem State.setChain_xlog : (s.setChain c).xlog = s.xlog := rfl
@[simp] theorem State.setChain_ivUnwritten : (s.setChain c).ivUnwritten = s.ivUnwritten := rfl
@[simp] theorem State.setChain_host : (s.setChain c).host = s.host := rfl
@[simp] theorem State.setChain_epoch : (s.setChain c).epoch = s.epoch := rfl

end setChain

section append

variable (s : State) (v : Block)

@[simp] theorem State.append_cmd : (s.append v).cmd = s.cmd := rfl
@[simp] theorem State.append_iv : (s.append v).iv = s.iv := rfl
@[simp] theorem State.append_nblk : (s.append v).nblk = s.nblk := rfl
@[simp] theorem State.append_ibuf : (s.append v).ibuf = s.ibuf := rfl
@[simp] theorem State.append_chain : (s.append v).chain = s.chain := rfl
@[simp] theorem State.append_clen : (s.append v).clen = s.clen := rfl
@[simp] theorem State.append_emode : (s.append v).emode = s.emode := rfl
@[simp] theorem State.append_phase : (s.append v).phase = s.phase := rfl
@[simp] theorem State.append_bidx : (s.append v).bidx = s.bidx := rfl
@[simp] theorem State.append_obuf : (s.append v).obuf = writeBytes s.obuf s.olen v := rfl
@[simp] theorem State.append_olen : (s.append v).olen = s.olen + v.length := rfl
@[simp] theorem State.append_ok : (s.append v).ok = s.ok := rfl
@[simp] theorem State.append_fail : (s.append v).fail = s.fail := rfl
@[simp] theorem State.append_dgr : (s.append v).dgr = s.dgr := rfl
@[simp] theorem State.append_err : (s.append v).err = s.err := rfl
@[simp] theorem State.append_xlog : (s.append v).xlog = s.xlog := rfl
@[simp] theorem State.append_ivUnwritten : (s.append v).ivUnwritten = s.ivUnwritten := rfl
@[simp] theorem State.append_host : (s.append v).host = s.host := rfl
@[simp] theorem State.append_epoch : (s.append v).epoch = s.epoch := rfl

end append

section advance

variable (s : State)

@[simp] theorem State.advance_cmd : s.advance.cmd = s.cmd := rfl
@[simp] theorem State.advance_iv : s.advance.iv = s.iv := rfl
@[simp] theorem State.advance_nblk : s.advance.nblk = s.nblk := rfl
@[simp] theorem State.advance_ibuf : s.advance.ibuf = s.ibuf := rfl
@[simp] theorem State.advance_chain : s.advance.chain = s.chain := rfl
@[simp] theorem State.advance_clen : s.advance.clen = s.clen := rfl
@[simp] theorem State.advance_emode : s.advance.emode = s.emode := rfl
@[simp] theorem State.advance_phase : s.advance.phase = s.phase := rfl
@[simp] theorem State.advance_bidx : s.advance.bidx = s.bidx + 1 := rfl
@[simp] theorem State.advance_obuf : s.advance.obuf = s.obuf := rfl
@[simp] theorem State.advance_olen : s.advance.olen = s.olen := rfl
@[simp] theorem State.advance_ok : s.advance.ok = s.ok := rfl
@[simp] theorem State.advance_fail : s.advance.fail = s.fail := rfl
@[simp] theorem State.advance_dgr : s.advance.dgr = s.dgr := rfl
@[simp] theorem State.advance_err : s.advance.err = s.err := rfl
@[simp] theorem State.advance_xlog : s.advance.xlog = s.xlog := rfl
@[simp] theorem State.advance_ivUnwritten : s.advance.ivUnwritten = s.ivUnwritten := rfl
@[simp] theorem State.advance_host : s.advance.host = s.host := rfl
@[simp] theorem State.advance_epoch : s.advance.epoch = s.epoch := rfl

end advance

section logEvents

variable (s : State) (es : List XEvent)

@[simp] theorem State.logEvents_cmd : (s.logEvents es).cmd = s.cmd := rfl
@[simp] theorem State.logEvents_iv : (s.logEvents es).iv = s.iv := rfl
@[simp] theorem State.logEvents_nblk : (s.logEvents es).nblk = s.nblk := rfl
@[simp] theorem State.logEvents_ibuf : (s.logEvents es).ibuf = s.ibuf := rfl
@[simp] theorem State.logEvents_chain : (s.logEvents es).chain = s.chain := rfl
@[simp] theorem State.logEvents_clen : (s.logEvents es).clen = s.clen := rfl
@[simp] theorem State.logEvents_emode : (s.logEvents es).emode = s.emode := rfl
@[simp] theorem State.logEvents_phase : (s.logEvents es).phase = s.phase := rfl
@[simp] theorem State.logEvents_bidx : (s.logEvents es).bidx = s.bidx := rfl
@[simp] theorem State.logEvents_obuf : (s.logEvents es).obuf = s.obuf := rfl
@[simp] theorem State.logEvents_olen : (s.logEvents es).olen = s.olen := rfl
@[simp] theorem State.logEvents_ok : (s.logEvents es).ok = s.ok := rfl
@[simp] theorem State.logEvents_fail : (s.logEvents es).fail = s.fail := rfl
@[simp] theorem State.logEvents_dgr : (s.logEvents es).dgr = s.dgr := rfl
@[simp] theorem State.logEvents_err : (s.logEvents es).err = s.err := rfl
@[simp] theorem State.logEvents_xlog : (s.logEvents es).xlog = s.xlog ++ es := rfl
@[simp] theorem State.logEvents_ivUnwritten : (s.logEvents es).ivUnwritten = s.ivUnwritten := rfl
@[simp] theorem State.logEvents_host : (s.logEvents es).host = s.host := rfl
@[simp] theorem State.logEvents_epoch : (s.logEvents es).epoch = s.epoch := rfl

end logEvents

section discardChain

variable (s : State) (e : Env)

@[simp] theorem State.discardChain_cmd : (s.discardChain e).cmd = s.cmd := rfl
@[simp] theorem State.discardChain_iv : (s.discardChain e).iv = s.iv := rfl
@[simp] theorem State.discardChain_nblk : (s.discardChain e).nblk = s.nblk := rfl
@[simp] theorem State.discardChain_ibuf : (s.discardChain e).ibuf = s.ibuf := rfl
@[simp] theorem State.discardChain_chain : (s.discardChain e).chain = List.replicate e.bs 0x00#8 := rfl
@[simp] theorem State.discardChain_clen : (s.discardChain e).clen = 0 := rfl
@[simp] theorem State.discardChain_emode : (s.discardChain e).emode = s.emode := rfl
@[simp] theorem State.discardChain_phase : (s.discardChain e).phase = s.phase := rfl
@[simp] theorem State.discardChain_bidx : (s.discardChain e).bidx = s.bidx := rfl
@[simp] theorem State.discardChain_obuf : (s.discardChain e).obuf = s.obuf := rfl
@[simp] theorem State.discardChain_olen : (s.discardChain e).olen = s.olen := rfl
@[simp] theorem State.discardChain_ok : (s.discardChain e).ok = s.ok := rfl
@[simp] theorem State.discardChain_fail : (s.discardChain e).fail = s.fail := rfl
@[simp] theorem State.discardChain_dgr : (s.discardChain e).dgr = s.dgr := rfl
@[simp] theorem State.discardChain_err : (s.discardChain e).err = s.err := rfl
@[simp] theorem State.discardChain_xlog : (s.discardChain e).xlog = s.xlog := rfl
@[simp] theorem State.discardChain_ivUnwritten : (s.discardChain e).ivUnwritten = s.ivUnwritten := rfl
@[simp] theorem State.discardChain_host : (s.discardChain e).host = s.host := rfl
@[simp] theorem State.discardChain_epoch : (s.discardChain e).epoch = s.epoch := rfl

end discardChain

section start

variable (s : State) (v : BitVec 8)

@[simp] theorem State.start_cmd : (s.start v).cmd = v := rfl
@[simp] theorem State.start_iv : (s.start v).iv = s.iv := rfl
@[simp] theorem State.start_nblk : (s.start v).nblk = s.nblk := rfl
@[simp] theorem State.start_ibuf : (s.start v).ibuf = s.ibuf := rfl
@[simp] theorem State.start_chain : (s.start v).chain = s.chain := rfl
@[simp] theorem State.start_clen : (s.start v).clen = s.clen := rfl
@[simp] theorem State.start_emode : (s.start v).emode = s.emode := rfl
@[simp] theorem State.start_phase : (s.start v).phase = .init := rfl
@[simp] theorem State.start_bidx : (s.start v).bidx = s.bidx := rfl
@[simp] theorem State.start_obuf : (s.start v).obuf = s.obuf := rfl
@[simp] theorem State.start_olen : (s.start v).olen = s.olen := rfl
@[simp] theorem State.start_ok : (s.start v).ok = false := rfl
@[simp] theorem State.start_fail : (s.start v).fail = false := rfl
@[simp] theorem State.start_dgr : (s.start v).dgr = false := rfl
@[simp] theorem State.start_err : (s.start v).err = none := rfl
@[simp] theorem State.start_xlog : (s.start v).xlog = [] := rfl
@[simp] theorem State.start_ivUnwritten : (s.start v).ivUnwritten = s.ivUnwritten := rfl
@[simp] theorem State.start_host : (s.start v).host = s.host := rfl
@[simp] theorem State.start_epoch : (s.start v).epoch = s.epoch := rfl

end start

section finish

variable (s : State) (e : Env)

@[simp] theorem State.finish_cmd : (s.finish e).cmd = s.cmd := rfl
@[simp] theorem State.finish_iv : (s.finish e).iv = s.iv := rfl
@[simp] theorem State.finish_nblk : (s.finish e).nblk = s.nblk := rfl
@[simp] theorem State.finish_ibuf : (s.finish e).ibuf = s.ibuf := rfl
@[simp] theorem State.finish_chain : (s.finish e).chain = List.replicate e.bs 0x00#8 := rfl
@[simp] theorem State.finish_clen : (s.finish e).clen = 0 := rfl
@[simp] theorem State.finish_emode : (s.finish e).emode = s.emode := rfl
@[simp] theorem State.finish_phase : (s.finish e).phase = .done := rfl
@[simp] theorem State.finish_bidx : (s.finish e).bidx = s.bidx := rfl
@[simp] theorem State.finish_obuf : (s.finish e).obuf = s.obuf := rfl
@[simp] theorem State.finish_olen : (s.finish e).olen = s.olen := rfl
@[simp] theorem State.finish_ok : (s.finish e).ok = true := rfl
@[simp] theorem State.finish_fail : (s.finish e).fail = s.fail := rfl
@[simp] theorem State.finish_dgr : (s.finish e).dgr = s.dgr := rfl
@[simp] theorem State.finish_err : (s.finish e).err = s.err := rfl
@[simp] theorem State.finish_xlog : (s.finish e).xlog = s.xlog := rfl
@[simp] theorem State.finish_ivUnwritten : (s.finish e).ivUnwritten = s.ivUnwritten := rfl
@[simp] theorem State.finish_host : (s.finish e).host = s.host := rfl
@[simp] theorem State.finish_epoch : (s.finish e).epoch = s.epoch := rfl

end finish

section abort

variable (s : State) (e : Env) (c : Cause)

@[simp] theorem State.abort_cmd : (s.abort e c).cmd = s.cmd := rfl
@[simp] theorem State.abort_iv : (s.abort e c).iv = s.iv := rfl
@[simp] theorem State.abort_nblk : (s.abort e c).nblk = s.nblk := rfl
@[simp] theorem State.abort_ibuf : (s.abort e c).ibuf = s.ibuf := rfl
@[simp] theorem State.abort_chain : (s.abort e c).chain = List.replicate e.bs 0x00#8 := rfl
@[simp] theorem State.abort_clen : (s.abort e c).clen = 0 := rfl
@[simp] theorem State.abort_emode : (s.abort e c).emode = s.emode := rfl
@[simp] theorem State.abort_phase : (s.abort e c).phase = .done := rfl
@[simp] theorem State.abort_bidx : (s.abort e c).bidx = s.bidx := rfl
@[simp] theorem State.abort_obuf : (s.abort e c).obuf = s.obuf := rfl
@[simp] theorem State.abort_olen : (s.abort e c).olen = 0 := rfl
@[simp] theorem State.abort_ok : (s.abort e c).ok = false := rfl
@[simp] theorem State.abort_fail : (s.abort e c).fail = true := rfl
@[simp] theorem State.abort_dgr : (s.abort e c).dgr = s.dgr := rfl
@[simp] theorem State.abort_err : (s.abort e c).err = some c := rfl
@[simp] theorem State.abort_xlog : (s.abort e c).xlog = s.xlog := rfl
@[simp] theorem State.abort_ivUnwritten : (s.abort e c).ivUnwritten = s.ivUnwritten := rfl
@[simp] theorem State.abort_host : (s.abort e c).host = s.host := rfl
@[simp] theorem State.abort_epoch : (s.abort e c).epoch = s.epoch := rfl

end abort

section select

variable (s : State) (m : Mode) (ivp : Bool)

@[simp] theorem State.select_cmd : (s.select m ivp).cmd = s.cmd := rfl
@[simp] theorem State.select_iv : (s.select m ivp).iv = s.iv := rfl
@[simp] theorem State.select_nblk : (s.select m ivp).nblk = s.nblk := rfl
@[simp] theorem State.select_ibuf : (s.select m ivp).ibuf = s.ibuf := rfl
@[simp] theorem State.select_chain : (s.select m ivp).chain = s.chain := rfl
@[simp] theorem State.select_clen : (s.select m ivp).clen = s.clen := rfl
@[simp] theorem State.select_emode : (s.select m ivp).emode = effectiveMode m ivp := rfl
@[simp] theorem State.select_phase : (s.select m ivp).phase = .proc := rfl
@[simp] theorem State.select_bidx : (s.select m ivp).bidx = 0 := rfl
@[simp] theorem State.select_obuf : (s.select m ivp).obuf = s.obuf := rfl
@[simp] theorem State.select_olen : (s.select m ivp).olen = 0 := rfl
@[simp] theorem State.select_ok : (s.select m ivp).ok = s.ok := rfl
@[simp] theorem State.select_fail : (s.select m ivp).fail = s.fail := rfl
@[simp] theorem State.select_dgr : (s.select m ivp).dgr = downgraded m ivp := rfl
@[simp] theorem State.select_err : (s.select m ivp).err = s.err := rfl
@[simp] theorem State.select_xlog : (s.select m ivp).xlog = s.xlog := rfl
@[simp] theorem State.select_ivUnwritten : (s.select m ivp).ivUnwritten = s.ivUnwritten := rfl
@[simp] theorem State.select_host : (s.select m ivp).host = s.host := rfl
@[simp] theorem State.select_epoch : (s.select m ivp).epoch = s.epoch := rfl

end select

section loadChain

variable (s : State) (e : Env) (iv : Block)

@[simp] theorem State.loadChain_cmd : (s.loadChain e iv).cmd = s.cmd := rfl
@[simp] theorem State.loadChain_iv : (s.loadChain e iv).iv = s.iv := rfl
@[simp] theorem State.loadChain_nblk : (s.loadChain e iv).nblk = s.nblk := rfl
@[simp] theorem State.loadChain_ibuf : (s.loadChain e iv).ibuf = s.ibuf := rfl
@[simp] theorem State.loadChain_chain : (s.loadChain e iv).chain = iv := rfl
@[simp] theorem State.loadChain_clen : (s.loadChain e iv).clen = e.bs := rfl
@[simp] theorem State.loadChain_emode : (s.loadChain e iv).emode = s.emode := rfl
@[simp] theorem State.loadChain_phase : (s.loadChain e iv).phase = s.phase := rfl
@[simp] theorem State.loadChain_bidx : (s.loadChain e iv).bidx = s.bidx := rfl
@[simp] theorem State.loadChain_obuf : (s.loadChain e iv).obuf = s.obuf := rfl
@[simp] theorem State.loadChain_olen : (s.loadChain e iv).olen = s.olen := rfl
@[simp] theorem State.loadChain_ok : (s.loadChain e iv).ok = s.ok := rfl
@[simp] theorem State.loadChain_fail : (s.loadChain e iv).fail = s.fail := rfl
@[simp] theorem State.loadChain_dgr : (s.loadChain e iv).dgr = s.dgr := rfl
@[simp] theorem State.loadChain_err : (s.loadChain e iv).err = s.err := rfl
@[simp] theorem State.loadChain_xlog : (s.loadChain e iv).xlog = s.xlog := rfl
@[simp] theorem State.loadChain_ivUnwritten : (s.loadChain e iv).ivUnwritten = s.ivUnwritten := rfl
@[simp] theorem State.loadChain_host : (s.loadChain e iv).host = s.host := rfl
@[simp] theorem State.loadChain_epoch : (s.loadChain e iv).epoch = s.epoch := rfl

end loadChain

section updateEntry

variable (s : State) (i : Nat) (f : InEntry → InEntry)

@[simp] theorem State.updateEntry_cmd : (s.updateEntry i f).cmd = s.cmd := rfl
@[simp] theorem State.updateEntry_iv : (s.updateEntry i f).iv = s.iv := rfl
@[simp] theorem State.updateEntry_nblk : (s.updateEntry i f).nblk = s.nblk := rfl
@[simp] theorem State.updateEntry_ibuf : (s.updateEntry i f).ibuf = cellWrite s.ibuf i (f (entryAt s.ibuf i)) := rfl
@[simp] theorem State.updateEntry_chain : (s.updateEntry i f).chain = s.chain := rfl
@[simp] theorem State.updateEntry_clen : (s.updateEntry i f).clen = s.clen := rfl
@[simp] theorem State.updateEntry_emode : (s.updateEntry i f).emode = s.emode := rfl
@[simp] theorem State.updateEntry_phase : (s.updateEntry i f).phase = s.phase := rfl
@[simp] theorem State.updateEntry_bidx : (s.updateEntry i f).bidx = s.bidx := rfl
@[simp] theorem State.updateEntry_obuf : (s.updateEntry i f).obuf = s.obuf := rfl
@[simp] theorem State.updateEntry_olen : (s.updateEntry i f).olen = s.olen := rfl
@[simp] theorem State.updateEntry_ok : (s.updateEntry i f).ok = s.ok := rfl
@[simp] theorem State.updateEntry_fail : (s.updateEntry i f).fail = s.fail := rfl
@[simp] theorem State.updateEntry_dgr : (s.updateEntry i f).dgr = s.dgr := rfl
@[simp] theorem State.updateEntry_err : (s.updateEntry i f).err = s.err := rfl
@[simp] theorem State.updateEntry_xlog : (s.updateEntry i f).xlog = s.xlog := rfl
@[simp] theorem State.updateEntry_ivUnwritten : (s.updateEntry i f).ivUnwritten = s.ivUnwritten := rfl
@[simp] theorem State.updateEntry_host : (s.updateEntry i f).host = s.host := rfl
@[simp] theorem State.updateEntry_epoch : (s.updateEntry i f).epoch = s.epoch := rfl

end updateEntry

section chainTo

variable (s : State) (c : Block)

@[simp] theorem State.chainTo_none : s.chainTo none = s := rfl
@[simp] theorem State.chainTo_some : s.chainTo (some c) = s.setChain c := rfl

end chainTo

end Sys2Proof.Machine
end

