-- ==== Sys2Proof/Laws/Block.lean ====
section
/-! SUPPORT. The laws of blocks: the XOR (40_datapath R123, R124), the block an operand read gives (20_memory R64), the
output stream (20_memory R67), the chaining state (10_state R27). -/

namespace Sys2Proof.Machine

/-- The XOR of a prefix has the prefix's length, where both operands reach that far (R124). -/
theorem xorPrefix_length (a b : Block) (n : Nat) (ha : n ≤ a.length) (hb : n ≤ b.length) :
    (xorPrefix a b n).length = n := by
  simp [xorPrefix, ha, hb]

/-- Byte `j` of the XOR (R123). -/
theorem xorPrefix_getElem? (a b : Block) (n j : Nat) (x y : Byte) (hj : j < n) (ha : a[j]? = some x)
    (hb : b[j]? = some y) : (xorPrefix a b n)[j]? = some (x ^^^ y) := by
  simp [xorPrefix, List.getElem?_zipWith, hj, ha, hb]

/-- XORing twice with the same block gives the prefix back (R124). -/
theorem xorPrefix_xorPrefix (a b : Block) (n : Nat) (ha : n ≤ a.length) (hb : n ≤ b.length) :
    xorPrefix (xorPrefix a b n) b n = a.take n := by
  refine List.ext_getElem? fun j => ?_
  by_cases hj : j < n
  · obtain ⟨x, hx⟩ : ∃ x, a[j]? = some x := ⟨_, List.getElem?_eq_getElem (by omega)⟩
    obtain ⟨y, hy⟩ : ∃ y, b[j]? = some y := ⟨_, List.getElem?_eq_getElem (by omega)⟩
    rw [xorPrefix_getElem? _ _ _ _ _ _ hj (xorPrefix_getElem? _ _ _ _ _ _ hj hx hy) hy]
    simp [hj, hx]
  · rw [List.getElem?_eq_none, List.getElem?_eq_none]
    · simp
      omega
    · simp [xorPrefix]
      omega

/-- A block that `BlockRead` gives has the entry's length, at most BS (R64). -/
theorem blockRead_length {e : Env} {s : State} {i : Nat} {b : Block} (h : s.blockRead e i = .block b) :
    b.length ≤ e.bs ∧ (entryAt s.ibuf i).len = some b.length := by
  unfold State.blockRead at h
  split at h
  · cases h
  · rename_i n hn
    split at h
    · cases h
    · split at h
      · cases h
      · rename_i hr
        cases h
        have := length_of_readBytes hr
        exact ⟨by omega, by rw [hn, this]⟩

/-- `BlockRead` depends on `IBUF` alone. -/
theorem blockRead_congr {e : Env} {s t : State} (h : t.ibuf = s.ibuf) (i : Nat) : t.blockRead e i = s.blockRead e i := by
  simp [State.blockRead, h]

theorem obufByte_of_written {e : Env} {s : State} {k : Nat} {b : Byte} (h : cellRead s.obuf k = some b) :
    s.obufByte e k = b := by
  simp [State.obufByte, h]

@[simp] theorem output_length (e : Env) (s : State) : (s.output e).length = s.olen := by
  simp [State.output]

/-- The output stream depends on the bytes the core has written below `OLEN`, where it has written them all. -/
theorem output_congr {e : Env} {s t : State} (hl : t.olen = s.olen)
    (hw : ∀ k < s.olen, (cellRead s.obuf k).isSome)
    (hr : ∀ k < s.olen, cellRead t.obuf k = cellRead s.obuf k) : t.output e = s.output e := by
  unfold State.output
  rw [hl]
  refine List.map_congr_left fun k hk => ?_
  have hk : k < s.olen := List.mem_range.1 hk
  obtain ⟨b, hb⟩ := Option.isSome_iff_exists.1 (hw k hk)
  rw [obufByte_of_written hb, obufByte_of_written ((hr k hk).trans hb)]

/-- `Append` adds its block at the end of the output stream (R67). -/
theorem output_append {e : Env} {s : State} (v : Block) (hw : ∀ k < s.olen, (cellRead s.obuf k).isSome) :
    (s.append v).output e = s.output e ++ v := by
  refine List.ext_getElem? fun k => ?_
  by_cases hk : k < s.olen
  · obtain ⟨b, hb⟩ := Option.isSome_iff_exists.1 (hw k hk)
    have hb' : cellRead (s.append v).obuf k = some b := by
      rw [State.append_obuf, cellRead_writeBytes, if_neg (by omega), hb]
    rw [List.getElem?_append_left (by simpa using hk)]
    simp only [State.output, State.append_olen, List.getElem?_map]
    rw [List.getElem?_range (by omega), List.getElem?_range hk]
    simp [obufByte_of_written hb, obufByte_of_written hb']
  · by_cases hk2 : k < s.olen + v.length
    · have hb : cellRead (s.append v).obuf k = v[k - s.olen]? := by
        rw [State.append_obuf, cellRead_writeBytes, if_pos (by omega)]
      have hv : v[k - s.olen]? = some v[k - s.olen] := List.getElem?_eq_getElem (by omega)
      rw [List.getElem?_append_right (by simpa using Nat.le_of_not_lt hk)]
      simp only [State.output, State.append_olen, List.getElem?_map, List.length_map, List.length_range]
      rw [List.getElem?_range hk2, hv]
      simp [obufByte_of_written (hb.trans hv)]
    · rw [List.getElem?_eq_none, List.getElem?_eq_none]
      · simp
        omega
      · simp
        omega

/-- `Append` keeps the written bytes written. -/
theorem append_written {s : State} (v : Block) (hw : ∀ k < s.olen, (cellRead s.obuf k).isSome) :
    ∀ k < (s.append v).olen, (cellRead (s.append v).obuf k).isSome := by
  intro k hk
  simp only [State.append_olen] at hk
  rw [State.append_obuf, cellRead_writeBytes]
  split
  · rw [List.getElem?_eq_getElem (by omega)]
    rfl
  · exact hw k (by omega)

/-- After `CHAIN[0:len(c)] <- c ; CLEN <- len(c)` the chaining state is `c`. -/
@[simp] theorem setChain_chainBlock (s : State) (c : Block) : (s.setChain c).chainBlock = c := by
  simp [State.chainBlock]

/-- `CHAIN` stays BS bytes wide. -/
theorem setChain_chain_length {s : State} {c : Block} {n : Nat} (hs : s.chain.length = n) (hc : c.length ≤ n) :
    (s.setChain c).chain.length = n := by
  simp
  omega

theorem chainBlock_length {s : State} {n : Nat} (hs : s.chain.length = n) (hc : s.clen ≤ n) :
    s.chainBlock.length = s.clen := by
  simp [State.chainBlock]
  omega

end Sys2Proof.Machine
end

