-- ==== Sys2Proof/Machine/Call.lean ====
section
/-! DEFINITION. The whole call as one function of its inputs (40_datapath R131): a left fold of the per-block rule over
the block sequence, stopping at the first fault. -/

namespace Sys2Proof.Machine

/-- The fold of R131 from block index `idx` on, with the chaining state and the output so far. -/
def processFrom (e : Env) (engine : Env → Block → Block → EngineRun) :
    Block → Nat → Block → List Block → CallEnd
  | _, _, out, [] => .present out
  | chain, idx, out, b :: rest =>
    if b.length > e.bs then .absent .lengthMismatch idx
    else
      match (engine e chain b).verdict with
      | .raise cause => .absent cause idx
      | .ok o next => processFrom e engine (next.getD chain) (idx + 1) (out ++ o) rest

/-- `process(CMD, IV, blocks, Xform)` (R131). -/
def process (e : Env) (code : BitVec 8) (iv : Block) (blocks : List Block) : CallEnd :=
  match instrMode (decodeCmd code) with
  | none => .absent .illegalCommand 0
  | some m =>
    let mode := effectiveMode m (ivpOf code)
    processFrom e (engineFor mode (dirOf code)) (if mode = .plain then [] else iv) 0 [] blocks

/-- `RESULT`, `ERR` and `BIDX` of a state in which a call of `n` blocks ended this way (R129, R256). -/
def State.EndedAs (e : Env) (n : Nat) (c : CallEnd) (s : State) : Prop :=
  match c with
  | .present out => s.result e = .present out ∧ s.olen = out.length ∧ s.err = none ∧ s.bidx = n
  | .absent cause idx => s.result e = .absent ∧ s.olen = 0 ∧ s.err = some cause ∧ s.bidx = idx

end Sys2Proof.Machine
end

