-- ==== Sys2Proof/Safety.lean ====
section
/-! DEFINITION. What counts as a good state and a good call, in the terms the statements use: the invariant of the
machine, the start-up contract (70_reset R294), the obligations on the blocks (R63, R296) and on the transform (R297). -/

namespace Sys2Proof.Machine

/-- The effective mode the command in `CMD` is given by R95 (2); Plain for an illegal one (R152). -/
def State.commandMode (s : State) : Mode :=
  match instrMode (decodeCmd s.cmd) with
  | none => .plain
  | some m => effectiveMode m (ivpOf s.cmd)

/-- The downgrade flag the command in `CMD` is given by R95 (3); 0 for an illegal one (R152). -/
def State.commandDgr (s : State) : Bool :=
  match instrMode (decodeCmd s.cmd) with
  | none => false
  | some m => downgraded m (ivpOf s.cmd)

/-- Does the latched command decrypt in CBC? Its event sequence is left open (R122, 93 U6). -/
def State.IsCbcDec (s : State) : Prop := s.emode = .cbc ∧ dirOf s.cmd = .decrypt

/-- An entry of `IBUF` lies in the ranges of R20 and R62. -/
def EntryInRange (e : Env) (i : Nat) (en : InEntry) : Prop :=
  blockExists e i = true ∧ (∀ n, en.len = some n → n < lenLimit e) ∧ ∀ c ∈ en.data, c.1 < e.bs

/-- The host-written inputs lie in their ranges. -/
structure State.InputsInv (e : Env) (s : State) : Prop where
  /-- `IV` is BS bytes (R24) -/
  ivLength : s.iv.length = e.bs
  /-- only bytes of `IV` can be unwritten -/
  ivUnwritten : ∀ j ∈ s.ivUnwritten, j < e.bs
  /-- `NBLK` is in `0..NBMAX` (R25) -/
  nblkFits : countFits e s.nblk = true
  /-- `IBUF` is in canonical form -/
  ibufWf : ibufWf s.ibuf
  /-- and in its ranges (R20, R62) -/
  ibufRange : ∀ x ∈ s.ibuf, EntryInRange e x.1 x.2

/-- The chaining state. -/
structure State.ChainInv (e : Env) (s : State) : Prop where
  /-- `CHAIN` is BS bytes (R27) -/
  chainLength : s.chain.length = e.bs
  /-- `CLEN` is in `0..BS` (R28) -/
  clenBound : s.clen ≤ e.bs
  /-- the chaining state is discarded outside a running chained call (R29, R153) -/
  discarded : s.phase ≠ .proc ∨ s.emode = .plain → s.chain = List.replicate e.bs 0x00#8 ∧ s.clen = 0

/-- The sequencer's control state. -/
structure State.ControlInv (e : Env) (s : State) : Prop where
  /-- no command was latched since reset (R30, R40) -/
  idleCmd : s.phase = .idle → s.cmd = 0x00#8
  /-- `EMODE` is the command's effective mode from the INIT step on (R32, R153) -/
  emodeOf : s.phase ≠ .init → s.emode = s.commandMode
  /-- `DGR` is the command's downgrade flag from the INIT step on, and 0 before it (R35) -/
  dgrOf : s.dgr = (if s.phase = .init then false else s.commandDgr)
  /-- blocks are processed for a legal command only (R101) -/
  procLegal : s.phase = .proc → (instrMode (decodeCmd s.cmd)).isSome = true
  /-- `BIDX` is in `0..NBMAX` (R31) -/
  bidxFits : countFits e s.bidx = true
  /-- `BIDX` never exceeds `NBLK` while blocks are processed (R31) -/
  bidxBound : s.phase = .proc → s.bidx ≤ s.nblk

/-- The output buffer. -/
structure State.OutputInv (e : Env) (s : State) : Prop where
  /-- at most BS bytes were appended for each processed block (R69) -/
  olenBound : s.olen ≤ s.bidx * e.bs
  /-- the output stream holds only bytes the core wrote (R34) -/
  outputWritten : ∀ k < s.olen, (cellRead s.obuf k).isSome = true
  /-- `OBUF` is in canonical form -/
  obufWf : Memory.wf s.obuf
  /-- and in its range (R20, R69) -/
  obufRange : ∀ c ∈ s.obuf, outputExists e c.1 = true

/-- The status bits and `ERR`. -/
structure State.StatusInv (s : State) : Prop where
  /-- in DONE exactly one of `OK` and `FAIL` is 1 (R35) -/
  doneOne : s.phase = .done → s.ok = !s.fail
  /-- in the other phases both are 0 (R35) -/
  elseNone : s.phase ≠ .done → s.ok = false ∧ s.fail = false
  /-- `ERR ≠ NONE` exactly when `FAIL = 1` (R36) -/
  errFail : s.err.isSome = s.fail
  /-- a failed call leaves no output (R256) -/
  failEmpty : s.fail = true → s.olen = 0

/-- The transform event sequence (R39, R122). -/
structure State.LogInv (s : State) : Prop where
  /-- no transform invocation before the first block (R122) -/
  xlogEmpty : s.phase = .init ∨ s.phase = .idle → s.xlog = []
  /-- every invocation of a call has the direction `TDIR` (R121) -/
  xlogTdir : s.phase ≠ .init → ∀ x ∈ s.xlog, x.tdir = s.tdir
  /-- one answered invocation per processed block (R122, R257), `CBC.DEC` apart -/
  xlogCount : s.phase = .proc → ¬ s.IsCbcDec → s.xlog.length = s.bidx ∧ ∀ x ∈ s.xlog, x.answer ≠ .fail

/-- What holds in every state a run reaches. -/
structure State.Inv (e : Env) (s : State) : Prop where
  inputs : s.InputsInv e
  chain : s.ChainInv e
  control : s.ControlInv e
  output : s.OutputInv e
  status : s.StatusInv
  log : s.LogInv

/-- Everything a call may read was written since reset (R294 (2), (3)): no block of the sequence is unwritten, and,
before the INIT step of a command that reads `IV`, no byte of `IV` is. -/
def State.InputsWritten (e : Env) (s : State) : Prop :=
  (∀ i < s.nblk, s.blockRead e i ≠ .unwritten) ∧
    (s.phase = .init → readsIv s.cmd = true → s.ivUnwritten = [])

/-- The fields no step of a call writes are as before: the inputs (R78), the pending events, the reset count, and which
bytes of `IV` are unwritten. -/
structure SameInputs (s t : State) : Prop where
  cmd : t.cmd = s.cmd
  iv : t.iv = s.iv
  nblk : t.nblk = s.nblk
  ibuf : t.ibuf = s.ibuf
  ivUnwritten : t.ivUnwritten = s.ivUnwritten
  host : t.host = s.host
  epoch : t.epoch = s.epoch

/-- From `s` to `t` a block was processed (R128): `out` appended, the chaining state set to `chain` where there is one
and unchanged where there is none, and nothing else changed but the record of transform invocations, which a statement
names beside it where the spec fixes it (R122). -/
structure BlockDone (s t : State) (out : Block) (chain : Option Block) : Prop where
  frame : SameInputs s t
  phase : t.phase = .proc
  emode : t.emode = s.emode
  dgr : t.dgr = s.dgr
  ok : t.ok = s.ok
  fail : t.fail = s.fail
  err : t.err = s.err
  bidx : t.bidx = s.bidx + 1
  olen : t.olen = s.olen + out.length
  /-- the appended bytes -/
  stored : ∀ j < out.length, cellRead t.obuf (s.olen + j) = out[j]?
  /-- every byte of `OBUF` outside them -/
  outside : ∀ k, (k < s.olen ∨ s.olen + out.length ≤ k) → cellRead t.obuf k = cellRead s.obuf k
  clen : t.clen = (chain.map List.length).getD s.clen
  chain : t.chain = (match chain with | none => s.chain | some c => c ++ s.chain.drop c.length)

/-- From `s` to `t` the abort sequence ran (R256) and nothing else but the record of transform invocations changed. -/
structure Aborted (e : Env) (s t : State) (cause : Cause) : Prop where
  frame : SameInputs s t
  err : t.err = some cause
  fail : t.fail = true
  ok : t.ok = false
  olen : t.olen = 0
  chain : t.chain = List.replicate e.bs 0x00#8
  clen : t.clen = 0
  phase : t.phase = .done
  bidx : t.bidx = s.bidx
  emode : t.emode = s.emode
  dgr : t.dgr = s.dgr
  /-- `OBUF` bytes are not erased -/
  obuf : t.obuf = s.obuf

/-- The two ways a per-block step ends. -/
def BlockEnds (e : Env) (s t : State) : Verdict → Prop
  | .ok out chain => BlockDone s t out chain
  | .raise cause => Aborted e s t cause

/-- `x` is the byte-wise XOR of the first `n` bytes of `a` and `b` (R123). -/
def IsXor (x a b : Block) (n : Nat) : Prop :=
  x.length = n ∧ ∀ j u v, j < n → a[j]? = some u → b[j]? = some v → x[j]? = some (u ^^^ v)

/-- All blocks but the last have length BS, the last at most BS (R63, R296). -/
def WellFormedBlocks (e : Env) (blocks : List Block) : Prop :=
  (∀ b ∈ blocks.dropLast, b.length = e.bs) ∧ ∀ b ∈ blocks, b.length ≤ e.bs

/-- The forward transform maps BS-byte blocks to BS-byte blocks without failing (R204, R236). -/
def ForwardTotal (e : Env) : Prop :=
  ∀ x : Block, x.length = e.bs → ∃ y : Block, e.xform .fwd x = .ok y ∧ y.length = e.bs

/-- The inverse transform undoes the forward one on BS-byte blocks (R204). -/
def InverseUndoes (e : Env) : Prop :=
  ∀ x y : Block, x.length = e.bs → e.xform .fwd x = .ok y → e.xform .inv y = .ok x

/-- `k` steps of the whole machine in any environment, stopping at the first fault or refusal. -/
def runIn (e : Env) : Nat → State → Out
  | 0, s => .next s
  | k + 1, s =>
    match stepIn e s with
    | .next t => runIn e k t
    | .fault r => .fault r
    | .refused r => .refused r

end Sys2Proof.Machine
end

