-- ==== Sys2Proof/Laws/Sequencer.lean ====
section
/-! SUPPORT. What the shared operations can do, each said once: `exec` and `step` are the machine of any environment at
`Config.env`; one lemma per engine; the cases of a sequencer's step and of a step of the whole. -/

namespace Sys2Proof.Machine

/-- `exec` is the sequencer's step of the command's fields in the machine's own environment. -/
theorem exec_eq (i : Instr) (s : State) : exec i s = execIn Config.env i s := by
  cases i <;> first | rfl | (rename_i ivp; cases ivp <;> rfl)

/-- `step` is the step of the whole in the machine's own environment. -/
theorem step_eq (s : State) : step s = stepIn Config.env s := by
  unfold step stepIn
  congr 1
  funext i t
  exact exec_eq i t

/-- `Core.run` is `runIn` in the machine's own environment. -/
theorem run_eq (k : Nat) (s : State) : Host.Core.run Sys2Proof.core k s = runIn Config.env k s := by
  induction k generalizing s with
  | zero => rfl
  | succ k ih =>
    have h : Sys2Proof.core.step s = stepIn Config.env s := step_eq s
    simp only [Host.Core.run, runIn, h]
    cases stepIn Config.env s <;> first | exact ih _ | rfl

/-! ### Engines -/

/-- Every invocation an engine makes has the direction R121 gives. -/
theorem engine_tdir (e : Env) (mode : Mode) (dir : Dir) (chain b : Block) :
    ∀ x ∈ (engineFor mode dir e chain b).events, x.tdir = tdirOf mode dir := by
  cases mode <;> cases dir <;>
    simp only [engineFor, plainEncBlock, plainDecBlock, plainBlock, cbcEncBlock, cbcDecBlock, cfbEncBlock,
      cfbDecBlock, cfbBlock, tdirOf] <;>
    first | (simp; done) | (split <;> simp)

/-- An engine that ends with a result made exactly one invocation, which was answered. -/
theorem engine_ok_events {e : Env} {mode : Mode} {dir : Dir} {chain b out : Block} {next : Option Block}
    (h : (engineFor mode dir e chain b).verdict = .ok out next) :
    ∃ x, (engineFor mode dir e chain b).events = [x] ∧ x.answer ≠ .fail := by
  cases mode <;> cases dir <;>
    simp only [engineFor, plainEncBlock, plainDecBlock, plainBlock, cbcEncBlock, cbcDecBlock, cfbEncBlock,
      cfbDecBlock, cfbBlock] at h ⊢
  case cbc.encrypt =>
    split at h
    · cases h
    · rename_i hl
      rw [if_neg hl]
      exact ⟨_, rfl, fun ha => by dsimp only at ha; rw [ha] at h; cases h⟩
  all_goals exact ⟨_, rfl, fun ha => by dsimp only at ha; rw [ha] at h; cases h⟩

/-- A result is at most BS bytes, and so is the new chaining block; the Plain engine makes none, the others one. -/
theorem engine_ok_length {e : Env} {mode : Mode} {dir : Dir} {chain b out : Block} {next : Option Block}
    (hc : chain.length ≤ e.bs) (hb : b.length ≤ e.bs)
    (h : (engineFor mode dir e chain b).verdict = .ok out next) :
    out.length ≤ e.bs ∧ (mode = .plain → next = none) ∧ ∀ c, next = some c → c.length ≤ e.bs := by
  have hx : ∀ (x y : Block) (n : Nat), (xorPrefix x y n).length ≤ n := fun x y n => by
    simp [xorPrefix]
  cases mode <;> cases dir <;>
    simp only [engineFor, plainEncBlock, plainDecBlock, plainBlock, cbcEncBlock, cbcDecBlock, cfbEncBlock,
      cfbDecBlock, cfbBlock] at h <;>
    (repeat' split at h) <;> simp only [Verdict.ok.injEq, reduceCtorEq] at h <;>
    obtain ⟨rfl, rfl⟩ := h <;>
    (try simp only [Option.some.injEq, reduceCtorEq, false_implies, implies_true, true_and, and_true, forall_eq']) <;>
    first
    | omega
    | exact ⟨(hx _ _ _).trans hc, hb⟩
    | exact ⟨(hx _ _ _).trans hb, (hx _ _ _).trans hb⟩
    | exact ⟨(hx _ _ _).trans hb, hb⟩

/-! ### The sequencer's step -/

/-- Everything a sequencer's step can do, when it answers a next state. -/
theorem sequencerStep_cases {e : Env} {mode : Option Mode} {ivp : Bool} {dir : Dir} {s t : State}
    (h : sequencerStep e mode ivp dir s = .next t) :
    ((s.phase = .idle ∨ s.phase = .done) ∧ t = s) ∨
    (s.phase = .init ∧ mode = none ∧
      t = State.abort e .illegalCommand { s with emode := .plain, bidx := 0, dgr := false }) ∨
    (∃ m, s.phase = .init ∧ mode = some m ∧ effectiveMode m ivp = .plain ∧ t = s.select m ivp) ∨
    (∃ m, s.phase = .init ∧ mode = some m ∧ effectiveMode m ivp ≠ .plain ∧ s.ivUnwritten = [] ∧
      t = (s.select m ivp).loadChain e s.iv) ∨
    (s.phase = .proc ∧ s.bidx = s.nblk ∧ t = s.finish e) ∨
    (s.phase = .proc ∧ s.bidx < s.nblk ∧ s.blockRead e s.bidx = .reserved ∧ t = s.abort e .lengthMismatch) ∨
    (∃ b, s.phase = .proc ∧ s.bidx < s.nblk ∧ s.blockRead e s.bidx = .block b ∧
      t = applyRun e (engineFor s.emode dir e s.chainBlock b) s) := by
  have iv : ∀ v, s.ivRead = some v → s.ivUnwritten = [] ∧ v = s.iv := fun v hv => by
    unfold State.ivRead at hv
    split at hv
    · rename_i h0
      cases hv
      exact ⟨h0, rfl⟩
    · cases hv
  unfold sequencerStep at h
  split at h
  · rename_i hp
    cases h
    exact .inl ⟨.inl hp, rfl⟩
  · rename_i hp
    cases h
    exact .inl ⟨.inr hp, rfl⟩
  · rename_i hp
    cases mode with
    | none =>
      cases h
      exact .inr (.inl ⟨hp, rfl, rfl⟩)
    | some m =>
      simp only [initStep, initLegal] at h
      split at h
      · rename_i hm
        cases h
        exact .inr (.inr (.inl ⟨m, hp, rfl, hm, rfl⟩))
      all_goals
        rename_i hm
        split at h
        · rename_i v hv
          obtain ⟨h0, rfl⟩ := iv v hv
          cases h
          exact .inr (.inr (.inr (.inl ⟨m, hp, rfl, by simp [hm], h0, rfl⟩)))
        · cases h
  · rename_i hp
    split at h
    · rename_i hn
      cases h
      exact .inr (.inr (.inr (.inr (.inl ⟨hp, hn, rfl⟩))))
    · split at h
      · rename_i hlt
        unfold blockStep at h
        split at h
        · cases h
        · rename_i hr
          cases h
          exact .inr (.inr (.inr (.inr (.inr (.inl ⟨hp, hlt, hr, rfl⟩)))))
        · rename_i b hr
          cases h
          exact .inr (.inr (.inr (.inr (.inr (.inr ⟨b, hp, hlt, hr, rfl⟩)))))
      · cases h

/-- A verdict applied: the abort sequence, or the append, the chaining update and the index. -/
theorem applyRun_cases (e : Env) (r : EngineRun) (s : State) :
    (∃ c, r.verdict = .raise c ∧ applyRun e r s = (s.logEvents r.events).abort e c) ∨
    (∃ out next, r.verdict = .ok out next ∧
      applyRun e r s = (((s.logEvents r.events).append out).chainTo next).advance) := by
  unfold applyRun
  cases r.verdict with
  | raise c => exact .inl ⟨c, rfl, rfl⟩
  | ok out next => exact .inr ⟨out, next, rfl, rfl⟩

/-! ### The step of the whole -/

/-- Everything a step of the whole can do, when it answers a next state. -/
theorem stepIn_cases {e : Env} {s t : State} (h : stepIn e s = .next t) :
    (execIn e (decodeCmd s.cmd) s = .next t) ∨
    (∃ rest, s.host = .core :: rest ∧ execIn e (decodeCmd s.cmd) { s with host := rest } = .next t) ∨
    (∃ rest, s.host = .wait :: rest ∧ s.phase = .done ∧ t = { s with host := rest }) ∨
    (∃ rest, s.host = .reset :: rest ∧ t = State.resetEvent e { s with host := rest }) ∨
    (∃ w rest, s.host = .write w :: rest ∧ writeRefusal e w = none ∧
      (s.busy = true ∧ t = { s with host := rest } ∨
        s.busy = false ∧ t = State.applyWrite w { s with host := rest })) := by
  unfold stepIn stepBy at h
  split at h
  · exact .inl h
  · rename_i w rest hh
    refine .inr (.inr (.inr (.inr ⟨w, rest, hh, ?_⟩)))
    unfold hostWrite at h
    split at h
    · cases h
    · rename_i hw
      refine ⟨hw, ?_⟩
      split at h
      · rename_i hb
        cases h
        exact .inl ⟨hb, rfl⟩
      · rename_i hb
        cases h
        exact .inr ⟨by simpa [State.busy] using hb, rfl⟩
  · rename_i rest hh
    cases h
    exact .inr (.inr (.inr (.inl ⟨rest, hh, rfl⟩)))
  · rename_i rest hh
    exact .inr (.inl ⟨rest, hh, h⟩)
  · rename_i rest hh
    split at h
    · rename_i hd
      cases h
      refine .inr (.inr (.inl ⟨rest, hh, ?_, rfl⟩))
      revert hd
      unfold State.isDone
      cases s.phase <;> simp
    · exact .inl h

end Sys2Proof.Machine
end

