-- ==== Sys2Proof/Laws/Decode.lean ====
section
/-! SUPPORT. The fields of a decoded command are the bits of the byte it was decoded from. -/

namespace Sys2Proof.Machine

/-- `IVP` of the decoded command is bit 3 of the byte. -/
@[simp] theorem instrIvp_decodeCmd (c : BitVec 8) : instrIvp (decodeCmd c) = ivpOf c := by
  revert c
  decide

/-- `DIR` of the decoded command is bit 0 of the byte. -/
@[simp] theorem instrDir_decodeCmd (c : BitVec 8) : instrDir (decodeCmd c) = dirOf c := by
  revert c
  decide

/-- The sequencer's step of the latched command reads the fields of `CMD`. -/
theorem execIn_decodeCmd (e : Env) (c : BitVec 8) (s : State) :
    execIn e (decodeCmd c) s = sequencerStep e (instrMode (decodeCmd c)) (ivpOf c) (dirOf c) s := by
  simp [execIn]

end Sys2Proof.Machine
end

