-- ==== Sys2Proof/Certificates/Slice0/Obligations.lean ====
section
/-! DEFINITION. The statements for the provers. Each docstring names the rule of spec/ it formalises. -/

open Sys2Proof Sys2Proof.Machine

/-! ### Encoding -/

/-- R100 to R102: the byte of a well-formed command, whatever bytes follow it, decodes to that command, with its `IVP`
bit and its latched byte as they were, and leaves the bytes after it. -/
def Obligations.DecodeInvertsEncode : Prop :=
  ∀ (i : Instr) (rest : List Byte), WellFormed i = true → decodeBytes (encodeBytes i ++ rest) = .ok (i, rest)

/-- R101: every byte is the word of exactly one well-formed command. -/
def Obligations.EveryByteIsOneCommand : Prop :=
  ∀ code : BitVec 8, ∃! i : Instr, WellFormed i = true ∧ encode i = code

/-- R95 (1) to (4): legality from bits 7:4 and 2:1, decided before the missing-IV rule; the effective mode; the
downgrade flag; the transform direction of the effective mode. -/
def Obligations.CommandFieldsDecode : Prop :=
  ∀ code : BitVec 8,
    (instrMode (decodeCmd code) = none ↔
      (code.extractLsb' 4 4 ≠ 0#4 ∨ code.extractLsb' 1 2 = 0b11#2)) ∧
    (∀ m, instrMode (decodeCmd code) = some m →
      modeCode m = code.extractLsb' 1 2 ∧
      instrIvp (decodeCmd code) = code.getLsbD 3 ∧
      (instrDir (decodeCmd code) = .decrypt ↔ code.getLsbD 0 = true) ∧
      effectiveMode m (code.getLsbD 3) = (if code.getLsbD 3 = false then .plain else m) ∧
      (downgraded m (code.getLsbD 3) = true ↔ code.getLsbD 3 = false ∧ m ≠ .plain) ∧
      (tdirOf (effectiveMode m (code.getLsbD 3)) (instrDir (decodeCmd code)) = .inv ↔
        code.getLsbD 0 = true ∧ effectiveMode m (code.getLsbD 3) ≠ .cfb))

/-- R100: the sixteen low command bytes, written out from the table. -/
def Obligations.TableWordsDecode : Prop :=
  [0x00#8, 0x01#8, 0x02#8, 0x03#8, 0x04#8, 0x05#8, 0x06#8, 0x07#8,
    0x08#8, 0x09#8, 0x0A#8, 0x0B#8, 0x0C#8, 0x0D#8, 0x0E#8, 0x0F#8].map decodeCmd =
  [.plainEnc false, .plainDec false, .cbcEncNoIv, .cbcDecNoIv, .cfbEncNoIv, .cfbDecNoIv,
    .illegalMode 0x06#8, .illegalMode 0x07#8,
    .plainEnc true, .plainDec true, .cbcEnc, .cbcDec, .cfbEnc, .cfbDec,
    .illegalMode 0x0E#8, .illegalMode 0x0F#8] ∧
  [0x10#8, 0x2A#8, 0x40#8, 0xFF#8].map decodeCmd =
    [.illegalRsv4 0x10#8, .illegalRsv5 0x2A#8, .illegalRsv6 0x40#8, .illegalRsv7 0xFF#8]

/-! ### Reset and the invariant -/

/-- R40, the values the spec gives, and that nothing of `IV`, `IBUF`, `OBUF` counts as written: the form in which the
model keeps contents the spec leaves unspecified is its own choice (logs 3, 4, 5). -/
def Obligations.ResetValues : Prop :=
  State.reset.phase = .idle ∧ State.reset.cmd = 0x00#8 ∧ State.reset.nblk = 0 ∧ State.reset.bidx = 0 ∧
  State.reset.olen = 0 ∧ State.reset.emode = .plain ∧ State.reset.ok = false ∧ State.reset.fail = false ∧
  State.reset.dgr = false ∧ State.reset.err = none ∧ State.reset.status = 0x00#8 ∧
  State.reset.chain = List.replicate Config.env.bs 0x00#8 ∧ State.reset.clen = 0 ∧
  State.reset.ivUnwritten = List.range Config.env.bs ∧
  (∀ i, State.reset.blockRead Config.env i = .unwritten) ∧ (∀ k, cellRead State.reset.obuf k = none)

/-- R290, R291: reset in any state puts every piece of state at its reset value, whatever call was running, leaves no
result, and the core then does nothing until the host acts. The model's own choices here: the host's pending events are
kept (log 6), resets are counted (log 3), the event sequence is emptied (log 8), and a step in IDLE answers the same
state (log 7). -/
def Obligations.ResetEventAbandonsTheCall : Prop :=
  ∀ (s : State) (rest : List HostEvent), s.host = .reset :: rest →
    ∃ t, step s = .next t ∧ t.host = rest ∧ t.epoch = s.epoch + 1 ∧
      t.phase = .idle ∧ t.cmd = 0x00#8 ∧ t.nblk = 0 ∧ t.bidx = 0 ∧ t.olen = 0 ∧ t.emode = .plain ∧
      t.ok = false ∧ t.fail = false ∧ t.dgr = false ∧ t.err = none ∧
      t.chain = List.replicate Config.env.bs 0x00#8 ∧ t.clen = 0 ∧
      t.ivUnwritten = List.range Config.env.bs ∧ (∀ i, t.blockRead Config.env i = .unwritten) ∧
      (∀ k, cellRead t.obuf k = none) ∧ t.xlog = [] ∧ t.result Config.env = .notYet ∧
      step { t with host := [] } = .next { t with host := [] }

/-- The invariant holds right after reset. What it says of the buffers' form, of the marks of unwritten bytes and of the
recorded invocations is about the model's own representation (logs 3 to 5, 8, 9). -/
def Obligations.ResetMeetsInv : Prop := State.reset.Inv Config.env

/-- Every step of the whole (a sequencer's step, a host write, a reset, a wait) keeps the invariant, from every state
that meets it. The fields of `State.Inv` name their rules; of these the spec marks R32's, R35's and R69's as derived,
and R32's is stated from the INIT step on (log 16). The model's own: the buffers' form and the marks of unwritten bytes
(logs 3 to 5, 9), the pending events (log 6), the step where none is enabled (log 7), the recorded invocations (log 8). -/
def Obligations.StepKeepsInv : Prop :=
  ∀ s t : State, s.Inv Config.env → step s = .next t → t.Inv Config.env

/-- R97: the bits of `STATUS`, and the values a host can read in a state that meets the invariant (the spec marks the
list of values as derived from R35). -/
def Obligations.StatusWordValues : Prop :=
  (∀ s : State,
    s.status.getLsbD 0 = decide (s.phase = .init ∨ s.phase = .proc) ∧ s.status.getLsbD 1 = decide (s.phase = .done) ∧
    s.status.getLsbD 2 = s.ok ∧ s.status.getLsbD 3 = s.fail ∧ s.status.getLsbD 4 = s.dgr ∧
    s.status.extractLsb' 5 3 = 0#3) ∧
  ∀ s : State, s.Inv Config.env →
    (s.phase = .idle → s.status = 0x00#8) ∧
    (s.phase = .init → s.status = 0x01#8) ∧
    (s.phase = .proc → s.status = 0x01#8 ∨ s.status = 0x11#8) ∧
    (s.phase = .done → s.ok = true → s.status = 0x06#8 ∨ s.status = 0x16#8) ∧
    (s.phase = .done → s.fail = true → s.status = 0x0A#8 ∨ s.status = 0x1A#8)

/-- R98 (with the codes of R92 and R251): `DISPATCH` and `ERR` as the host reads them, in every phase. -/
def Obligations.DispatchAndErrWords : Prop :=
  ∀ s : State,
    s.dispatch.extractLsb' 0 2 = (match s.emode with | .plain => 0b00#2 | .cbc => 0b01#2 | .cfb => 0b10#2) ∧
    (s.dispatch.getLsbD 2 = true ↔ s.tdir = .inv) ∧ s.dispatch.extractLsb' 3 5 = 0#5 ∧
    s.errWord = (match s.err with
      | none => 0x00#8
      | some .transformFailure => 0x01#8
      | some .lengthMismatch => 0x02#8
      | some .illegalCommand => 0x03#8)

/-! ### The host -/

/-- R126: START is accepted in IDLE and DONE, writes six things and nothing else of the core, and is ignored while busy.
The model's own choices here: that the event sequence, a modelling aid (R39), is emptied at this moment (log 8), and
that the write is an event used up by the step (log 6). -/
def Obligations.StartBeginsACall : Prop :=
  ∀ (s : State) (v : BitVec 8) (rest : List HostEvent), s.host = .write (.reg .cmd v.toNat) :: rest →
    ((s.phase = .idle ∨ s.phase = .done) →
      step s = .next { s with
        cmd := v, ok := false, fail := false, dgr := false, err := none, phase := .init, xlog := [], host := rest }) ∧
    ((s.phase = .init ∨ s.phase = .proc) → step s = .next { s with host := rest })

/-- R301, R38: every host write while a call runs is ignored, with no fault and no flag. That it is an event used up by
the step is the model's own (log 6). -/
def Obligations.WritesWhileBusyAreIgnored : Prop :=
  ∀ (s : State) (w : HostWrite) (rest : List HostEvent), s.host = .write w :: rest →
    writeRefusal Config.env w = none → (s.phase = .init ∨ s.phase = .proc) → step s = .next { s with host := rest }

/-- R24 to R26, R38: an accepted write of an input changes that input alone, and the host then reads back what it wrote.
Said of the machine in any environment (a capacity `NBMAX` of 0 has no `IBUF` to write); `step` is the instance at
`Config.env`. That a byte or length nothing has written since reset reads as before, too, is the model's choice (logs
3, 4): the spec leaves it unspecified. -/
def Obligations.InputWritesAreReadBack : Prop :=
  (∀ s : State, step s = stepIn Config.env s) ∧
  ∀ (e : Env) (s : State) (rest : List HostEvent), s.InputsInv e → (s.phase = .idle ∨ s.phase = .done) →
    (∀ n, countFits e n = true → s.host = .write (.reg .nblk n) :: rest →
      stepIn e s = .next { s with nblk := n, host := rest }) ∧
    (∀ j b, j < e.bs → s.host = .write (.iv j b) :: rest →
      ∃ t, stepIn e s = .next t ∧ t = { s with iv := t.iv, ivUnwritten := t.ivUnwritten, host := rest } ∧
        hostRead e (.iv j) t = .ok b.toNat ∧
        (∀ k, k ≠ j → hostRead e (.iv k) t = hostRead e (.iv k) s) ∧
        (∀ k, k ∈ t.ivUnwritten ↔ k ∈ s.ivUnwritten ∧ k ≠ j)) ∧
    (∀ i n, blockExists e i = true → n < lenLimit e → s.host = .write (.ibufLen i n) :: rest →
      ∃ t, stepIn e s = .next t ∧ t = { s with ibuf := t.ibuf, host := rest } ∧
        hostRead e (.ibufLen i) t = .ok n ∧
        (∀ k, k ≠ i → hostRead e (.ibufLen k) t = hostRead e (.ibufLen k) s) ∧
        (∀ k j, hostRead e (.ibufData k j) t = hostRead e (.ibufData k j) s)) ∧
    (∀ i j b, blockExists e i = true → j < e.bs → s.host = .write (.ibufData i j b) :: rest →
      ∃ t, stepIn e s = .next t ∧ t = { s with ibuf := t.ibuf, host := rest } ∧
        hostRead e (.ibufData i j) t = .ok b.toNat ∧
        (∀ k l, (k ≠ i ∨ l ≠ j) →
          hostRead e (.ibufData k l) t = hostRead e (.ibufData k l) s) ∧
        (∀ k, hostRead e (.ibufLen k) t = hostRead e (.ibufLen k) s))

/-- R38: what each numbered register reads as, and that a write of register 7 (and, the model's reading of 'read', log
10, of a read-only register) changes nothing. That the write is an event used up by the step is the model's own
(log 6). -/
def Obligations.RegisterMapReads : Prop :=
  (∀ s : State,
    (hostRegOf 0).map s.readReg = some s.cmd.toNat ∧ (hostRegOf 1).map s.readReg = some s.status.toNat ∧
    (hostRegOf 2).map s.readReg = some s.errWord.toNat ∧ (hostRegOf 3).map s.readReg = some s.nblk ∧
    (hostRegOf 4).map s.readReg = some s.bidx ∧ (hostRegOf 5).map s.readReg = some s.olen ∧
    (hostRegOf 6).map s.readReg = some s.dispatch.toNat ∧ (hostRegOf 7).map s.readReg = some 0 ∧
    ∀ n, 8 ≤ n → hostRegOf n = none) ∧
  ∀ (s : State) (r : HostReg) (v : Nat) (rest : List HostEvent), r ≠ .cmd → r ≠ .nblk →
    s.host = .write (.reg r v) :: rest → step s = .next { s with host := rest }

/-- U15, U16 (R25, R38): a host write of `NBLK` above `NBMAX`, or at an index that does not exist, is refused, by name.
The same for a `CMD` of more than 8 bits and for a length its field cannot hold is the model's (log 12; the field's
width: log 11), and so is that this comes before the busy check (log 12). Said of the machine in any environment (an
unbounded `NBMAX` refuses no index); `step` is the instance at `Config.env`. -/
def Obligations.WritesOutOfRangeAreRefused : Prop :=
  (∀ s : State, step s = stepIn Config.env s) ∧
  ∀ (e : Env) (s : State) (rest : List HostEvent),
    (∀ v, 2 ^ 8 ≤ v → s.host = .write (.reg .cmd v) :: rest → stepIn e s = .refused .notRepresentable) ∧
    (∀ n, countFits e n = false → s.host = .write (.reg .nblk n) :: rest →
      stepIn e s = .refused .notRepresentable) ∧
    (∀ j b, e.bs ≤ j → s.host = .write (.iv j b) :: rest → stepIn e s = .refused .noSuchAccess) ∧
    (∀ i n, blockExists e i = true → lenLimit e ≤ n → s.host = .write (.ibufLen i n) :: rest →
      stepIn e s = .refused .notRepresentable) ∧
    (∀ i n, blockExists e i = false → s.host = .write (.ibufLen i n) :: rest →
      stepIn e s = .refused .noSuchAccess) ∧
    (∀ i j b, (blockExists e i = false ∨ e.bs ≤ j) →
      s.host = .write (.ibufData i j b) :: rest → stepIn e s = .refused .noSuchAccess)

/-- R37, R38, R295: in DONE with a present result the host reads that result from `OBUF`, byte by byte; a read at an index
that does not exist is refused (U16). In any environment. -/
def Obligations.HostReadsTheResult : Prop :=
  ∀ (e : Env) (s : State),
    (∀ out, s.Inv e → s.result e = .present out →
      hostRead e (.reg .olen) s = .ok out.length ∧
      ∀ k b, out[k]? = some b → hostRead e (.obuf k) s = .ok b.toNat) ∧
    (∀ k, outputExists e k = false → hostRead e (.obuf k) s = .error .noSuchAccess) ∧
    (∀ j, e.bs ≤ j → hostRead e (.iv j) s = .error .noSuchAccess) ∧
    (∀ i, blockExists e i = false → hostRead e (.ibufLen i) s = .error .noSuchAccess) ∧
    (∀ i j, (blockExists e i = false ∨ e.bs ≤ j) → hostRead e (.ibufData i j) s = .error .noSuchAccess)

/-! ### A step runs the latched command -/

/-- R127: with no host event before it, a step is the sequencer's step of the command decoded from `CMD`. The rest is
the model's own: a pending `core` event is used up by that step, under a pending `wait` it is the same until DONE, which
uses the `wait` up (log 6); a command placed by `withFetchWord` is the one the next step runs (log 14). -/
def Obligations.StepRunsTheLatchedCommand : Prop :=
  ∀ (s : State) (i : Instr), decodeBytes [s.cmd] = .ok (i, []) →
    WellFormed i = true ∧
    (s.host = [] → step s = exec i s) ∧
    (∀ rest, s.host = .core :: rest → step s = exec i { s with host := rest }) ∧
    (∀ rest, s.host = .wait :: rest → s.phase ≠ .done → step s = exec i s) ∧
    (∀ rest, s.host = .wait :: rest → s.phase = .done → step s = .next { s with host := rest }) ∧
    step (s.withFetchWord 8 s.cmd.toNat) = exec i (s.withFetchWord 8 s.cmd.toNat)

/-- R127, R130: in IDLE and DONE no step is enabled and the state does not change. (That the model's step then answers
the same state is its own choice, log 7.) -/
def Obligations.CoreWaitsInIdleAndDone : Prop :=
  ∀ (i : Instr) (s : State), (s.phase = .idle ∨ s.phase = .done) → exec i s = .next s

/-! ### The INIT step -/

/-- R152: every illegal command in the INIT step. -/
def Obligations.IllegalCommandAborts : Prop :=
  ∀ (code : BitVec 8) (s : State), s.phase = .init →
    ∀ i ∈ [Instr.illegalMode code, .illegalRsv7 code, .illegalRsv6 code, .illegalRsv5 code, .illegalRsv4 code],
      ∃ t, exec i s = .next t ∧
        Aborted Config.env { s with emode := .plain, bidx := 0, dgr := false } t .illegalCommand ∧ t.xlog = s.xlog ∧
        t.result Config.env = .absent

/-- R153: the INIT step of every legal command. The effective mode is Plain for `PLAIN.ENC` and `PLAIN.DEC`, with or
without an IV, and for the four commands without one, which set `DGR`; there `IV`, `CHAIN` and `CLEN` are neither read
nor written. The four commands that chain load all of `CHAIN` from an `IV` the host has written (R294). -/
def Obligations.InitOfALegalCommand : Prop :=
  ∀ s : State, s.phase = .init →
    (∀ i, (∃ ivp, i = Instr.plainEnc ivp ∨ i = .plainDec ivp) →
      exec i s = .next { s with emode := .plain, dgr := false, bidx := 0, olen := 0, phase := .proc }) ∧
    (∀ i ∈ [Instr.cbcEncNoIv, .cbcDecNoIv, .cfbEncNoIv, .cfbDecNoIv],
      exec i s = .next { s with emode := .plain, dgr := true, bidx := 0, olen := 0, phase := .proc }) ∧
    (s.ivUnwritten = [] → ∀ i ∈ [Instr.cbcEnc, .cbcDec],
      exec i s = .next { s with
        emode := .cbc, dgr := false, chain := s.iv, clen := Config.env.bs, bidx := 0, olen := 0, phase := .proc }) ∧
    (s.ivUnwritten = [] → ∀ i ∈ [Instr.cfbEnc, .cfbDec],
      exec i s = .next { s with
        emode := .cfb, dgr := false, chain := s.iv, clen := Config.env.bs, bidx := 0, olen := 0, phase := .proc })

/-- R294, R40 (U3, D26): a call that would read a never-written byte of `IV`, or an input block never written, is refused,
by name, in every command that reads it. The rules say that the call is refused, not at which step: that it is the step
that would read the input (INIT for `IV`, the per-block step for a block) and not START is the model's reading (log 17). -/
def Obligations.NeverWrittenInputIsRefused : Prop :=
  (∀ s : State, s.phase = .init → s.ivUnwritten ≠ [] →
    ∀ i ∈ [Instr.cbcEnc, .cbcDec, .cfbEnc, .cfbDec], exec i s = .refused .neverWrittenInput) ∧
  (∀ (i : Instr) (s : State), s.phase = .proc → s.bidx < s.nblk →
    s.blockRead Config.env s.bidx = .unwritten → exec i s = .refused .neverWrittenInput)

/-- R104: the four `.NOIV` commands, and Plain with an IV supplied, run exactly as the Plain command of the same
direction, step by step, from any state, but for what `CMD` reads back and `STATUS.DGR`. -/
def Obligations.DowngradedCommandsRunAsPlain : Prop :=
  ∀ (s : State) (k : Nat), s.host = [] →
    ∀ p ∈ [(0x02#8, 0x00#8, true), (0x04#8, 0x00#8, true), (0x03#8, 0x01#8, true), (0x05#8, 0x01#8, true),
        (0x08#8, 0x00#8, false), (0x09#8, 0x01#8, false)],
      match Host.Core.run core k (s.start p.2.1) with
      | .next u =>
        Host.Core.run core k (s.start p.1) = .next { u with cmd := p.1, dgr := decide (k ≠ 0) && p.2.2 }
      | .fault r => Host.Core.run core k (s.start p.1) = .fault r
      | .refused r => Host.Core.run core k (s.start p.1) = .refused r

/-! ### The per-block steps -/

/-- R171, with R64 and R65: one block of every command that runs the Plain engine in the direction Encrypt. -/
def Obligations.PlainEncProcessesABlock : Prop :=
  ∀ (ivp : Bool) (s : State), s.phase = .proc → s.emode = .plain → s.bidx < s.nblk →
    ∀ i ∈ [Instr.plainEnc ivp, .cbcEncNoIv, .cfbEncNoIv],
      (s.blockRead Config.env s.bidx = .reserved →
        ∃ t, exec i s = .next t ∧ Aborted Config.env s t .lengthMismatch ∧ t.xlog = s.xlog) ∧
      ∀ p, s.blockRead Config.env s.bidx = .block p →
        ∃ t, exec i s = .next t ∧
          t.xlog = s.xlog ++ [{ tdir := .fwd, input := p, answer := Config.xform .fwd p }] ∧
          BlockEnds Config.env s t
            (match Config.xform .fwd p with
            | .fail => .raise .transformFailure
            | .ok c => if c.length > Config.env.bs then .raise .lengthMismatch else .ok c none)

/-- R172, with R64 and R65: one block of every command that runs the Plain engine in the direction Decrypt. -/
def Obligations.PlainDecProcessesABlock : Prop :=
  ∀ (ivp : Bool) (s : State), s.phase = .proc → s.emode = .plain → s.bidx < s.nblk →
    ∀ i ∈ [Instr.plainDec ivp, .cbcDecNoIv, .cfbDecNoIv],
      (s.blockRead Config.env s.bidx = .reserved →
        ∃ t, exec i s = .next t ∧ Aborted Config.env s t .lengthMismatch ∧ t.xlog = s.xlog) ∧
      ∀ c, s.blockRead Config.env s.bidx = .block c →
        ∃ t, exec i s = .next t ∧
          t.xlog = s.xlog ++ [{ tdir := .inv, input := c, answer := Config.xform .inv c }] ∧
          BlockEnds Config.env s t
            (match Config.xform .inv c with
            | .fail => .raise .transformFailure
            | .ok p => if p.length > Config.env.bs then .raise .lengthMismatch else .ok p none)

/-- R191, with R64 and R65: one block of `CBC.ENC`. -/
def Obligations.CbcEncProcessesABlock : Prop :=
  ∀ s : State, s.ChainInv Config.env → s.phase = .proc → s.emode = .cbc → s.bidx < s.nblk →
    (s.blockRead Config.env s.bidx = .reserved →
      ∃ t, exec .cbcEnc s = .next t ∧ Aborted Config.env s t .lengthMismatch ∧ t.xlog = s.xlog) ∧
    (∀ p, s.blockRead Config.env s.bidx = .block p → p.length > s.clen →
      ∃ t, exec .cbcEnc s = .next t ∧ Aborted Config.env s t .lengthMismatch ∧ t.xlog = s.xlog) ∧
    (∀ p, s.blockRead Config.env s.bidx = .block p → p.length ≤ s.clen →
      ∃ x t, IsXor x p s.chain p.length ∧ exec .cbcEnc s = .next t ∧
        t.xlog = s.xlog ++ [{ tdir := .fwd, input := x, answer := Config.xform .fwd x }] ∧
        BlockEnds Config.env s t
          (match Config.xform .fwd x with
          | .fail => .raise .transformFailure
          | .ok c => if c.length > Config.env.bs then .raise .lengthMismatch else .ok c (some c)))

/-- R201, with R64 and R65: one block of `CBC.DEC`. Nothing is said of the record of its transform invocations, whose
order the spec leaves open (U6). -/
def Obligations.CbcDecProcessesABlock : Prop :=
  ∀ s : State, s.ChainInv Config.env → s.phase = .proc → s.emode = .cbc → s.bidx < s.nblk →
    (s.blockRead Config.env s.bidx = .reserved →
      ∃ t, exec .cbcDec s = .next t ∧ Aborted Config.env s t .lengthMismatch) ∧
    (∀ c, s.blockRead Config.env s.bidx = .block c →
      ∃ t, exec .cbcDec s = .next t ∧
        match Config.xform .inv c with
        | .fail => Aborted Config.env s t .transformFailure
        | .ok d =>
          (d.length ≠ s.clen → Aborted Config.env s t .lengthMismatch) ∧
          (d.length = s.clen → ∃ p, IsXor p d s.chain s.clen ∧ BlockDone s t p (some c)))

/-- R221, with R64 and R65: one block of `CFB.ENC`. -/
def Obligations.CfbEncProcessesABlock : Prop :=
  ∀ s : State, s.phase = .proc → s.emode = .cfb → s.bidx < s.nblk →
    (s.blockRead Config.env s.bidx = .reserved →
      ∃ t, exec .cfbEnc s = .next t ∧ Aborted Config.env s t .lengthMismatch ∧ t.xlog = s.xlog) ∧
    (∀ p, s.blockRead Config.env s.bidx = .block p →
      ∃ t, exec .cfbEnc s = .next t ∧
        t.xlog = s.xlog ++ [⟨.fwd, s.chain.take s.clen, Config.xform .fwd (s.chain.take s.clen)⟩] ∧
        match Config.xform .fwd (s.chain.take s.clen) with
        | .fail => Aborted Config.env s t .transformFailure
        | .ok k =>
          (k.length > Config.env.bs ∨ p.length > k.length → Aborted Config.env s t .lengthMismatch) ∧
          (k.length ≤ Config.env.bs → p.length ≤ k.length →
            ∃ c, IsXor c p k p.length ∧ BlockDone s t c (some c)))

/-- R231, with R64 and R65: one block of `CFB.DEC`: the forward transform again, and the chaining state is the received
block. -/
def Obligations.CfbDecProcessesABlock : Prop :=
  ∀ s : State, s.phase = .proc → s.emode = .cfb → s.bidx < s.nblk →
    (s.blockRead Config.env s.bidx = .reserved →
      ∃ t, exec .cfbDec s = .next t ∧ Aborted Config.env s t .lengthMismatch ∧ t.xlog = s.xlog) ∧
    (∀ c, s.blockRead Config.env s.bidx = .block c →
      ∃ t, exec .cfbDec s = .next t ∧
        t.xlog = s.xlog ++ [⟨.fwd, s.chain.take s.clen, Config.xform .fwd (s.chain.take s.clen)⟩] ∧
        match Config.xform .fwd (s.chain.take s.clen) with
        | .fail => Aborted Config.env s t .transformFailure
        | .ok k =>
          (k.length > Config.env.bs ∨ c.length > k.length → Aborted Config.env s t .lengthMismatch) ∧
          (k.length ≤ Config.env.bs → c.length ≤ k.length →
            ∃ p, IsXor p c k c.length ∧ BlockDone s t p (some c)))

/-! ### The end of a call -/

/-- R129: the finish step, while any command is latched. -/
def Obligations.FinishStepCompletesTheCall : Prop :=
  ∀ (i : Instr) (s : State), s.phase = .proc → s.bidx = s.nblk →
    ∃ t, exec i s = .next t ∧
      t = { s with
        ok := true, chain := List.replicate Config.env.bs 0x00#8, clen := 0, phase := .done } ∧
      t.result Config.env = .present (s.output Config.env)

/-- R127 with R31: beyond `NBLK` no step is enabled; the model is stuck there, by name (log 13). -/
def Obligations.NoStepBeyondTheLastBlock : Prop :=
  ∀ (i : Instr) (s : State), s.phase = .proc → s.nblk < s.bidx → exec i s = .fault .noStepEnabled

/-- R256: whenever a sequencer's step ends a call with a failure, it has done the abort sequence: nothing of the output
is left, the chaining state is gone, the index of the block stays. By R130 no step is enabled after it; that the model's
step then answers the same state is its own choice (log 7). -/
def Obligations.EveryFailureIsTheAbortSequence : Prop :=
  ∀ (i : Instr) (s t : State), (s.phase = .init ∨ s.phase = .proc) → exec i s = .next t → t.phase = .done →
    t.fail = true → s.fail = false →
    t.err.isSome = true ∧ t.ok = false ∧ t.olen = 0 ∧ t.chain = List.replicate Config.env.bs 0x00#8 ∧ t.clen = 0 ∧
    t.obuf = s.obuf ∧ t.result Config.env = .absent ∧ SameInputs s t ∧
    (s.phase = .proc → t.bidx = s.bidx ∧ t.emode = s.emode ∧ t.dgr = s.dgr ∧ t.err ≠ some .illegalCommand) ∧
    (s.phase = .init → t.bidx = 0 ∧ t.err = some .illegalCommand) ∧
    ∀ j, exec j t = .next t

/-! ### Frames and whole-machine rules -/

/-- R78, R74: no sequencer's step writes `CMD`, `IV`, `NBLK` or `IBUF` (nor the pending events, the reset count or the
marks of unwritten bytes, the model's own fields, logs 3, 6), and the effective mode and the transform direction stay
for the rest of a call. In IDLE and DONE, where no step is enabled, the next state is the model's choice (log 7). -/
def Obligations.StepsNeverWriteTheInputs : Prop :=
  ∀ (i : Instr) (s t : State), exec i s = .next t →
    SameInputs s t ∧ (s.phase ≠ .init → t.emode = s.emode ∧ t.tdir = s.tdir ∧ t.dgr = s.dgr)

/-- R67, R34: a sequencer's step changes `OBUF` at most from the old `OLEN` up to the new one. In IDLE and DONE, where no
step is enabled, the next state is the model's choice (log 7). -/
def Obligations.OutputChangesOnlyByAppending : Prop :=
  ∀ (i : Instr) (s t : State), exec i s = .next t →
    ∀ k, (k < s.olen ∨ t.olen ≤ k) → cellRead t.obuf k = cellRead s.obuf k

/-- R27, R170: a Plain call never makes a chaining state: each of its steps leaves the chaining register as it was, or
ends the call and discards it (R29). -/
def Obligations.PlainNeverTouchesTheChain : Prop :=
  ∀ (i : Instr) (s t : State), s.phase = .proc → s.emode = .plain → exec i s = .next t →
    (t.phase = .proc ∧ t.chain = s.chain ∧ t.clen = s.clen) ∨
    (t.phase = .done ∧ t.chain = List.replicate Config.env.bs 0x00#8 ∧ t.clen = 0)

/-- R121: the directions of the table, and that every transform invocation a step makes has the direction of the
effective mode and is made while blocks are processed. The record of invocations is R39's modelling aid (log 8); in IDLE
and DONE, where no step is enabled, the next state is the model's choice (log 7). -/
def Obligations.TransformDirectionIsTdir : Prop :=
  (∀ m d, tdirOf m d = .inv ↔ d = .decrypt ∧ (m = .plain ∨ m = .cbc)) ∧
  ∀ (i : Instr) (s t : State), exec i s = .next t →
    ∃ events, t.xlog = s.xlog ++ events ∧
      ∀ x ∈ events, s.phase = .proc ∧ x.tdir = tdirOf s.emode (instrDir i) ∧ x.answer = Config.xform x.tdir x.input

/-- R233, CFB-FORWARD-ONLY: with `EMODE = CFB`, in either direction, every transform invocation is a forward one, of the
chaining state. -/
def Obligations.CfbForwardOnly : Prop :=
  ∀ (i : Instr) (s t : State), s.phase = .proc → s.emode = .cfb → exec i s = .next t →
    ∃ events, t.xlog = s.xlog ++ events ∧ ∀ x ∈ events, x.tdir = .fwd ∧ x.input = s.chainBlock

/-- R30: the only moves between phases of a step of the whole; nothing leaves DONE or IDLE but START, nothing returns to
IDLE but reset. The pending events, and a step that changes no phase because none is enabled, are the model's own (logs
6, 7). -/
def Obligations.PhaseTransitions : Prop :=
  ∀ s t : State, step s = .next t →
    (t.phase = s.phase) ∨
    (t.phase = .idle ∧ ∃ rest, s.host = .reset :: rest) ∨
    ((s.phase = .idle ∨ s.phase = .done) ∧ t.phase = .init ∧ ∃ v rest, s.host = .write (.reg .cmd v) :: rest) ∨
    (s.phase = .init ∧ (t.phase = .proc ∨ t.phase = .done)) ∨
    (s.phase = .proc ∧ t.phase = .done)

/-- R31: how the block index moves in a step of the whole. The pending events, and a step that changes nothing because
none is enabled, are the model's own (logs 6, 7). -/
def Obligations.BlockIndexMoves : Prop :=
  ∀ s t : State, step s = .next t →
    (t.bidx = 0 ∧ ((∃ rest, s.host = .reset :: rest) ∨ s.phase = .init)) ∨
    (t.bidx = s.bidx + 1 ∧ s.phase = .proc ∧ t.phase = .proc ∧ t.bidx ≤ t.nblk) ∨
    (t.bidx = s.bidx ∧ (s.phase = .proc → t.phase = .done → t.ok = true → t.bidx = t.nblk))

/-- R127, R250, R294: where every input the call reads is written, the latched command's step always answers a next
state, which again has every input written: no fault, no refusal. In INIT and PROC the step is R127's; in IDLE and DONE,
where no step is enabled, the next state is the model's choice (log 7). -/
def Obligations.ReadyCallsNeverStop : Prop :=
  ∀ s : State, s.Inv Config.env → s.InputsWritten Config.env →
    ∃ t, exec (decodeCmd s.cmd) s = .next t ∧ t.InputsWritten Config.env

/-! ### Whole calls -/

/-- R131, which the spec marks as derived: a call run step by step, in any environment, ends as the whole-call
function says: result, `OLEN`, `ERR`, `BIDX`, within `NBLK + 2` steps; and so does the machine. Steps after an
early end answer the same state, the model's choice (log 7). -/
def Obligations.CallRunsAsTheWholeCallFunction : Prop :=
  (∀ (e : Env) (s : State) (blocks : List Block), s.Inv e → s.host = [] → s.phase = .init →
    s.blocks e = some blocks → (readsIv s.cmd = true → s.ivUnwritten = []) →
    ∃ t, runIn e (s.nblk + 2) s = .next t ∧ t.phase = .done ∧
      t.EndedAs e s.nblk (process e s.cmd s.iv blocks)) ∧
  (∀ (s : State) (blocks : List Block), s.Inv Config.env → s.host = [] → s.phase = .init →
    s.blocks Config.env = some blocks → (readsIv s.cmd = true → s.ivUnwritten = []) →
    ∃ t, Host.Core.run core (s.nblk + 2) s = .next t ∧ t.phase = .done ∧
      t.EndedAs Config.env s.nblk (process Config.env s.cmd s.iv blocks))

/-- R130 (the spec marks the number as derived), R305: a call whose inputs are written is over after at most
`NBLK + 2` steps, legal or not. Steps after an early end answer the same state, the model's choice (log 7). -/
def Obligations.CallsEndInTime : Prop :=
  ∀ s : State, s.Inv Config.env → s.host = [] → s.phase = .init → s.InputsWritten Config.env →
    ∃ t, Host.Core.run core (s.nblk + 2) s = .next t ∧ t.phase = .done

/-- R129, D0's empty input: every legal command on no blocks ends in two steps with a present, empty result and no
transform invocation. -/
def Obligations.EmptyInputIsASuccess : Prop :=
  ∀ s : State, s.host = [] → s.phase = .init → s.nblk = 0 → s.fail = false → s.xlog = [] →
    (instrMode (decodeCmd s.cmd)).isSome = true → (readsIv s.cmd = true → s.ivUnwritten = []) →
    ∃ t, Host.Core.run core 2 s = .next t ∧ t.result Config.env = .present [] ∧ t.olen = 0 ∧ t.ok = true ∧
      t.fail = false ∧ t.xlog = []

/-- R304, which the spec marks as derived: a call's end depends only on its command and its inputs. Two states in
which the same call begins, whatever calls came before, stay in the same phase and end with the same result, `ERR`,
`BIDX`, `OLEN`. Steps after the end answer the same state, the model's choice (log 7); the marks of unwritten bytes are
the model's own (log 3). -/
def Obligations.NothingLeaksBetweenCalls : Prop :=
  ∀ (s u : State) (k : Nat), s.Inv Config.env → u.Inv Config.env → s.host = [] → u.host = [] →
    s.phase = .init → u.phase = .init → u.cmd = s.cmd → u.iv = s.iv → u.ivUnwritten = s.ivUnwritten →
    u.nblk = s.nblk → u.ibuf = s.ibuf →
    match Host.Core.run core k s with
    | .next t => ∃ v, Host.Core.run core k u = .next v ∧ v.phase = t.phase ∧
        (t.phase = .done → v.result Config.env = t.result Config.env ∧ v.err = t.err ∧ v.bidx = t.bidx ∧
          v.olen = t.olen ∧ v.status = t.status)
    | .fault r => Host.Core.run core k u = .fault r
    | .refused r => Host.Core.run core k u = .refused r

/-- R174, which the spec marks as derived: the whole call of the Plain engine: the answers concatenated in input
order, or an absent result at the lowest index whose invocation failed or was too long. -/
def Obligations.PlainCallConcatenatesTheAnswers : Prop :=
  ∀ (e : Env) (iv : Block) (blocks : List Block) (p : BitVec 8 × TDir),
    p ∈ [(0x00#8, TDir.fwd), (0x01#8, TDir.inv)] → (∀ b ∈ blocks, b.length ≤ e.bs) →
    (∀ answers : List Block, blocks.map (e.xform p.2) = answers.map .ok → (∀ r ∈ answers, r.length ≤ e.bs) →
      process e p.1 iv blocks = .present answers.flatten) ∧
    (∀ (before : List Block) (b : Block) (after : List Block), blocks = before ++ b :: after →
      (∀ x ∈ before, ∃ r, e.xform p.2 x = .ok r ∧ r.length ≤ e.bs) →
      (e.xform p.2 b = .fail → process e p.1 iv blocks = .absent .transformFailure before.length) ∧
      (∀ r, e.xform p.2 b = .ok r → r.length > e.bs →
        process e p.1 iv blocks = .absent .lengthMismatch before.length))

/-- R68: a successful CFB call, in either direction, gives exactly as many bytes as it was given. -/
def Obligations.CfbKeepsTheLength : Prop :=
  ∀ (e : Env) (code : BitVec 8) (iv : Block) (blocks : List Block) (out : Block),
    code = 0x0C#8 ∨ code = 0x0D#8 → process e code iv blocks = .present out →
    out.length = (blocks.map List.length).sum

/-- R204, D0's CBC round trip, which the spec marks as derived, with its hypotheses: full blocks, a length-preserving
forward transform, an inverse that undoes it. -/
def Obligations.CbcRoundTrip : Prop :=
  ∀ (e : Env) (iv : Block) (blocks : List Block), iv.length = e.bs → (∀ b ∈ blocks, b.length = e.bs) →
    ForwardTotal e → InverseUndoes e →
    ∃ cs : List Block, process e 0x0A#8 iv blocks = .present cs.flatten ∧ cs.length = blocks.length ∧
      (∀ c ∈ cs, c.length = e.bs) ∧ process e 0x0B#8 iv cs = .present blocks.flatten

/-- R236, D0's CFB round trip, which the spec marks as derived: the last block may be short, the forward transform
alone is used and need not be invertible. -/
def Obligations.CfbRoundTrip : Prop :=
  ∀ (e : Env) (iv : Block) (blocks : List Block), iv.length = e.bs → WellFormedBlocks e blocks → ForwardTotal e →
    ∃ cs : List Block, process e 0x0C#8 iv blocks = .present cs.flatten ∧
      cs.map List.length = blocks.map List.length ∧ process e 0x0D#8 iv cs = .present blocks.flatten
end

