-- ==== Sys2Proof/Laws/PerInstr.lean ====
section
/-! SUPPORT. What holds of every instruction as syntax, one lemma per constructor. -/

namespace Sys2Proof.Laws.EncodeInRow

/-- The mask of the instruction's row in spec/opcode_table.json. -/
def rowMask : Instr → BitVec 8
  | .plainEnc _ => 0xF7#8
  | .plainDec _ => 0xF7#8
  | .cbcEncNoIv => 0xFF#8
  | .cbcDecNoIv => 0xFF#8
  | .cfbEncNoIv => 0xFF#8
  | .cfbDecNoIv => 0xFF#8
  | .cbcEnc => 0xFF#8
  | .cbcDec => 0xFF#8
  | .cfbEnc => 0xFF#8
  | .cfbDec => 0xFF#8
  | .illegalMode _ => 0xF6#8
  | .illegalRsv7 _ => 0x80#8
  | .illegalRsv6 _ => 0xC0#8
  | .illegalRsv5 _ => 0xE0#8
  | .illegalRsv4 _ => 0xF0#8

/-- The bits the row fixes, as its match gives them. -/
def rowMatch : Instr → BitVec 8
  | .plainEnc _ => 0x00#8
  | .plainDec _ => 0x01#8
  | .cbcEncNoIv => 0x02#8
  | .cbcDecNoIv => 0x03#8
  | .cfbEncNoIv => 0x04#8
  | .cfbDecNoIv => 0x05#8
  | .cbcEnc => 0x0A#8
  | .cbcDec => 0x0B#8
  | .cfbEnc => 0x0C#8
  | .cfbDec => 0x0D#8
  | .illegalMode _ => 0x06#8
  | .illegalRsv7 _ => 0x80#8
  | .illegalRsv6 _ => 0x40#8
  | .illegalRsv5 _ => 0x20#8
  | .illegalRsv4 _ => 0x10#8

/-- A well-formed instruction's byte lies in its row of the table. -/
def Statement (i : Instr) : Prop := WellFormed i = true → encode i &&& rowMask i = rowMatch i

theorem plainEnc (ivp : Bool) : Statement (.plainEnc ivp) := by
  intro _
  cases ivp <;> rfl

theorem plainDec (ivp : Bool) : Statement (.plainDec ivp) := by
  intro _
  cases ivp <;> rfl

theorem cbcEncNoIv : Statement .cbcEncNoIv := fun _ => rfl

theorem cbcDecNoIv : Statement .cbcDecNoIv := fun _ => rfl

theorem cfbEncNoIv : Statement .cfbEncNoIv := fun _ => rfl

theorem cfbDecNoIv : Statement .cfbDecNoIv := fun _ => rfl

theorem cbcEnc : Statement .cbcEnc := fun _ => rfl

theorem cbcDec : Statement .cbcDec := fun _ => rfl

theorem cfbEnc : Statement .cfbEnc := fun _ => rfl

theorem cfbDec : Statement .cfbDec := fun _ => rfl

theorem illegalMode (code : BitVec 8) : Statement (.illegalMode code) := fun h => by
  exact eq_of_beq (show inRow _ _ code = true from h)

theorem illegalRsv7 (code : BitVec 8) : Statement (.illegalRsv7 code) := fun h => by
  exact eq_of_beq (show inRow _ _ code = true from h)

theorem illegalRsv6 (code : BitVec 8) : Statement (.illegalRsv6 code) := fun h => by
  exact eq_of_beq (show inRow _ _ code = true from h)

theorem illegalRsv5 (code : BitVec 8) : Statement (.illegalRsv5 code) := fun h => by
  exact eq_of_beq (show inRow _ _ code = true from h)

theorem illegalRsv4 (code : BitVec 8) : Statement (.illegalRsv4 code) := fun h => by
  exact eq_of_beq (show inRow _ _ code = true from h)

end Sys2Proof.Laws.EncodeInRow
end

