-- ==== Sys2Proof/Tests/Slice0.lean ====
section
/-! SUPPORT. The package's own tests: ill-formed terms refused, words written out from the encoding table, the worked
examples of the rules (block size 4, the fixture transform ROTINC of 95_test_vectors), and for every statement with
hypotheses a witness that meets them. -/

namespace Sys2Proof.Tests

open Sys2Proof Sys2Proof.Machine

/-! ### Ill-formed terms: a byte outside the row it is filed under (30_encoding R101) -/

theorem test_illFormed_mode : WellFormed (.illegalMode 0x04#8) = false := by decide

theorem test_illFormed_rsv7 : WellFormed (.illegalRsv7 0x7F#8) = false := by decide

theorem test_illFormed_rsv6 : WellFormed (.illegalRsv6 0xC0#8) = false := by decide

theorem test_illFormed_rsv5 : WellFormed (.illegalRsv5 0x1F#8) = false := by decide

theorem test_illFormed_rsv4 : WellFormed (.illegalRsv4 0x0E#8) = false := by decide

/-! ### Words written out bit by bit, `RSV IVP MODE DIR` (30_encoding R90 to R101) -/

theorem test_word_plainEnc : decodeTableWord 8 0b00000000 = some (.plainEnc false) := by decide

theorem test_word_plainEnc_iv : decodeTableWord 8 0b00001000 = some (.plainEnc true) := by decide

theorem test_word_plainDec : decodeTableWord 8 0b00000001 = some (.plainDec false) := by decide

theorem test_word_plainDec_iv : decodeTableWord 8 0b00001001 = some (.plainDec true) := by decide

theorem test_word_cbcEncNoIv : decodeTableWord 8 0b00000010 = some .cbcEncNoIv := by decide

theorem test_word_cbcDecNoIv : decodeTableWord 8 0b00000011 = some .cbcDecNoIv := by decide

theorem test_word_cfbEncNoIv : decodeTableWord 8 0b00000100 = some .cfbEncNoIv := by decide

theorem test_word_cfbDecNoIv : decodeTableWord 8 0b00000101 = some .cfbDecNoIv := by decide

theorem test_word_cbcEnc : decodeTableWord 8 0b00001010 = some .cbcEnc := by decide

theorem test_word_cbcDec : decodeTableWord 8 0b00001011 = some .cbcDec := by decide

theorem test_word_cfbEnc : decodeTableWord 8 0b00001100 = some .cfbEnc := by decide

theorem test_word_cfbDec : decodeTableWord 8 0b00001101 = some .cfbDec := by decide

theorem test_word_illegalMode : decodeTableWord 8 0b00000110 = some (.illegalMode 0b00000110#8) := by decide

theorem test_word_illegalRsv7 : decodeTableWord 8 0b10001010 = some (.illegalRsv7 0b10001010#8) := by decide

theorem test_word_illegalRsv6 : decodeTableWord 8 0b01001010 = some (.illegalRsv6 0b01001010#8) := by decide

theorem test_word_illegalRsv5 : decodeTableWord 8 0b00101010 = some (.illegalRsv5 0b00101010#8) := by decide

theorem test_word_illegalRsv4 : decodeTableWord 8 0b00011010 = some (.illegalRsv4 0b00011010#8) := by decide

/-! ### The fixture of 95_test_vectors: block size 4, ROTINC -/

/-- ROTINC forward: rotate left by one byte, then add 1 to every byte. -/
def rotFwd (b : Block) : Block := (b.drop 1 ++ b.take 1).map fun x => x + 1#8

/-- ROTINC inverse: subtract 1 from every byte, then rotate right by one byte. -/
def rotInv (b : Block) : Block := (b.drop (b.length - 1) ++ b.take (b.length - 1)).map fun x => x - 1#8

/-- The environment of the worked examples. -/
def rotinc : Env where
  bsMinusOne := 3
  nbmax := some 3
  xform := fun d b => .ok (match d with | .fwd => rotFwd b | .inv => rotInv b)
  freeByte := fun _ => 0x00#8
  freeLen := fun _ _ => 0

/-- An environment whose transform never answers. -/
def failing : Env := { rotinc with xform := fun _ _ => .fail }

/-- An environment whose transform answers with five bytes. -/
def tooLong : Env := { rotinc with xform := fun _ _ => .ok (List.replicate 5 0x00#8) }

/-- `PROC`, block 0 of one, that block being `b`, in mode `m`, the chaining state `c`. -/
def onBlock (m : Mode) (b c : Block) : State :=
  { State.resetAt rotinc 0 with
    phase := .proc, emode := m, nblk := 1, chain := c, clen := 4
    ibuf := [(0, { len := some b.length, data := writeBytes [] 0 b })] }

/-- `INIT` with this command latched and `IV = 10 20 30 40` written. -/
def onInit (code : BitVec 8) : State :=
  { State.resetAt rotinc 0 with
    cmd := code, phase := .init, iv := [0x10#8, 0x20#8, 0x30#8, 0x40#8], ivUnwritten := [] }

/-- What the examples of the per-block rules name: `OBUF[0:OLEN]`, `CHAIN[0:CLEN]`, `BIDX`, the next phase. -/
def seen (o : Out) : Option (Block × Block × Nat × Phase) :=
  match o with
  | .next t => some (t.output rotinc, t.chainBlock, t.bidx, t.phase)
  | .fault _ => none
  | .refused _ => none

/-- What the examples of the INIT step name: `EMODE`, `CHAIN[0:CLEN]`, `STATUS`, `ERR`. -/
def seenInit (o : Out) : Option (Mode × Block × BitVec 8 × BitVec 8) :=
  match o with
  | .next t => some (t.emode, t.chainBlock, t.status, t.errWord)
  | .fault _ => none
  | .refused _ => none

/-- R171's example. -/
theorem test_plainEnc :
    seen (execIn rotinc (.plainEnc false) (onBlock .plain [0x01#8, 0x02#8, 0x03#8, 0x04#8] [])) =
      some ([0x03#8, 0x04#8, 0x05#8, 0x02#8], [], 1, .proc) := by decide

/-- R172's example. -/
theorem test_plainDec :
    seen (execIn rotinc (.plainDec false) (onBlock .plain [0x03#8, 0x04#8, 0x05#8, 0x02#8] [])) =
      some ([0x01#8, 0x02#8, 0x03#8, 0x04#8], [], 1, .proc) := by decide

/-- R191's example. -/
theorem test_cbcEnc :
    seen (execIn rotinc .cbcEnc
        (onBlock .cbc [0x01#8, 0x02#8, 0x03#8, 0x04#8] [0x10#8, 0x20#8, 0x30#8, 0x40#8])) =
      some ([0x23#8, 0x34#8, 0x45#8, 0x12#8], [0x23#8, 0x34#8, 0x45#8, 0x12#8], 1, .proc) := by decide

/-- R201's example. -/
theorem test_cbcDec :
    seen (execIn rotinc .cbcDec
        (onBlock .cbc [0x23#8, 0x34#8, 0x45#8, 0x12#8] [0x10#8, 0x20#8, 0x30#8, 0x40#8])) =
      some ([0x01#8, 0x02#8, 0x03#8, 0x04#8], [0x23#8, 0x34#8, 0x45#8, 0x12#8], 1, .proc) := by decide

/-- R221's example. -/
theorem test_cfbEnc :
    seen (execIn rotinc .cfbEnc
        (onBlock .cfb [0x01#8, 0x02#8, 0x03#8, 0x04#8] [0x10#8, 0x20#8, 0x30#8, 0x40#8])) =
      some ([0x20#8, 0x33#8, 0x42#8, 0x15#8], [0x20#8, 0x33#8, 0x42#8, 0x15#8], 1, .proc) := by decide

/-- R231's example. -/
theorem test_cfbDec :
    seen (execIn rotinc .cfbDec
        (onBlock .cfb [0x20#8, 0x33#8, 0x42#8, 0x15#8] [0x10#8, 0x20#8, 0x30#8, 0x40#8])) =
      some ([0x01#8, 0x02#8, 0x03#8, 0x04#8], [0x20#8, 0x33#8, 0x42#8, 0x15#8], 1, .proc) := by decide

/-- R153's example. -/
theorem test_cbcEnc_init :
    seenInit (execIn rotinc .cbcEnc (onInit 0x0A#8)) =
      some (.cbc, [0x10#8, 0x20#8, 0x30#8, 0x40#8], 0x01#8, 0x00#8) := by decide

/-- R153, R155: an IV supplied to Plain is ignored. -/
theorem test_plainDec_init :
    seenInit (execIn rotinc (.plainDec true) (onInit 0x09#8)) = some (.plain, [], 0x01#8, 0x00#8) := by decide

/-- R154, R97: the downgrade shows as `STATUS = 0x11`. -/
theorem test_cbcEncNoIv_init :
    seenInit (execIn rotinc .cbcEncNoIv (onInit 0x02#8)) = some (.plain, [], 0x11#8, 0x00#8) := by decide

theorem test_cbcDecNoIv_init :
    seenInit (execIn rotinc .cbcDecNoIv (onInit 0x03#8)) = some (.plain, [], 0x11#8, 0x00#8) := by decide

theorem test_cfbEncNoIv_init :
    seenInit (execIn rotinc .cfbEncNoIv (onInit 0x04#8)) = some (.plain, [], 0x11#8, 0x00#8) := by decide

/-- R172's note: a downgraded `CFB.DEC.NOIV` asks for the inverse transform. -/
theorem test_cfbDecNoIv :
    seen (execIn rotinc .cfbDecNoIv (onBlock .plain [0x03#8, 0x04#8, 0x05#8, 0x02#8] [])) =
      some ([0x01#8, 0x02#8, 0x03#8, 0x04#8], [], 1, .proc) := by decide

/-- R152's example, `START 0x0E`. -/
theorem test_illegalMode :
    seenInit (execIn rotinc (.illegalMode 0x0E#8) (onInit 0x0E#8)) = some (.plain, [], 0x0A#8, 0x03#8) := by decide

theorem test_illegalRsv7 :
    seenInit (execIn rotinc (.illegalRsv7 0x80#8) (onInit 0x80#8)) = some (.plain, [], 0x0A#8, 0x03#8) := by decide

theorem test_illegalRsv6 :
    seenInit (execIn rotinc (.illegalRsv6 0x40#8) (onInit 0x40#8)) = some (.plain, [], 0x0A#8, 0x03#8) := by decide

theorem test_illegalRsv5 :
    seenInit (execIn rotinc (.illegalRsv5 0x20#8) (onInit 0x20#8)) = some (.plain, [], 0x0A#8, 0x03#8) := by decide

theorem test_illegalRsv4 :
    seenInit (execIn rotinc (.illegalRsv4 0x1A#8) (onInit 0x1A#8)) = some (.plain, [], 0x0A#8, 0x03#8) := by decide

/-- 95_test_vectors' H7: reset, `NBLK 1`, `START CBC.ENC` with nothing written to `IV` or `IBUF[0]` is refused. -/
theorem test_vector_h7 :
    (match stepIn rotinc (State.start 0x0A#8 { State.resetAt rotinc 0 with nblk := 1 }) with
      | .refused r => some r
      | .next _ => none
      | .fault _ => none) = some .neverWrittenInput := by decide

/-- A command placed after reset is the one the next step runs. -/
theorem test_withFetchWord : ∃ t, step (State.reset.withFetchWord 8 0x0D) = .next t ∧ t.emode = .cfb := ⟨_, rfl, rfl⟩

/-- A byte outside the table's width is no part of the word. -/
theorem test_tableWord_width : decodeTableWord 8 0x10A = some .cbcEnc := by decide

/-! ### Witnesses: states that meet the hypotheses of the statements -/

/-- After the first reset, with these events pending. -/
def idleWith (h : List HostEvent) : State := { State.resetAt Config.env 1 with host := h }

/-- In this phase, with these events pending. -/
def phaseWith (p : Phase) (h : List HostEvent) : State := { State.resetAt Config.env 1 with phase := p, host := h }

/-- A call on no blocks under this command, before its INIT step, all of `IV` written. -/
def initOf (code : BitVec 8) : State :=
  { State.resetAt Config.env 1 with cmd := code, phase := .init, ivUnwritten := [] }

/-- In `PROC` at block 0 of one, in mode `m`, with this entry there, the chaining state `n` bytes of zero. -/
def procAt (m : Mode) (n : Nat) (entry : InEntry) : State :=
  { State.resetAt Config.env 1 with phase := .proc, emode := m, nblk := 1, clen := n, ibuf := [(0, entry)] }

/-- A one-byte block. -/
def oneByte : InEntry := { len := some 1, data := [(0, 0x41#8)] }

/-- A reserved length, the least. -/
def reservedEntry : InEntry := { len := some (Config.env.bs + 1), data := [] }

theorem procAt_block (m : Mode) (n : Nat) :
    (procAt m n oneByte).blockRead Config.env (procAt m n oneByte).bidx = .block [0x41#8] := by
  simp [State.blockRead, procAt, oneByte, entryAt, cellRead, readBytes, State.resetAt, Env.bs]

theorem procAt_reserved (m : Mode) (n : Nat) :
    (procAt m n reservedEntry).blockRead Config.env (procAt m n reservedEntry).bidx = .reserved := by
  simp [State.blockRead, procAt, reservedEntry, entryAt, cellRead, State.resetAt]

theorem procAt_unwritten (m : Mode) (n : Nat) :
    (procAt m n emptyEntry).blockRead Config.env (procAt m n emptyEntry).bidx = .unwritten := rfl

theorem procAt_chain (m : Mode) {n : Nat} (en : InEntry) (h : n ≤ Config.env.bs) (hm : m ≠ .plain) :
    (procAt m n en).ChainInv Config.env := by
  constructor <;> simp [procAt, State.resetAt, h, hm]

/-- Every block-processing state below steps to a next state, whatever the transform answers. -/
theorem procAt_steps (i : Instr) (m : Mode) (n : Nat) : ∃ t, exec i (procAt m n oneByte) = .next t := by
  rw [exec_eq]
  simp only [execIn, sequencerStep, blockStep, procAt_block]
  exact ⟨_, rfl⟩

/-- For `DecodeInvertsEncode`, at the least and the greatest byte of a row. -/
theorem witness_decodeInvertsEncode :
    WellFormed (.illegalRsv7 0x80#8) = true ∧ WellFormed (.illegalRsv7 0xFF#8) = true ∧
      WellFormed (.plainEnc true) = true := by decide

/-- For `CommandFieldsDecode`: a chained, a downgraded and an illegal command. -/
theorem witness_commandFieldsDecode :
    instrMode (decodeCmd 0x0D#8) = some .cfb ∧ instrMode (decodeCmd 0x02#8) = some .cbc ∧
      instrMode (decodeCmd 0x10#8) = none := by decide

/-- For `ResetEventAbandonsTheCall`: a reset in the middle of a call. -/
theorem witness_resetEvent : (phaseWith .proc [.reset, .core]).host = .reset :: [.core] := rfl

/-- For `StepKeepsInv` and, phase by phase, for `StatusWordValues`. -/
theorem witness_inv_idle : (idleWith [.core]).Inv Config.env := by
  constructor <;> constructor <;>
    simp [idleWith, State.resetAt, State.commandMode, State.commandDgr, countFits, Memory.wf, ibufWf]
  all_goals first | decide | (cases Config.env.nbmax <;> simp)

theorem witness_inv_init (code : BitVec 8) : (initOf code).Inv Config.env := by
  constructor <;> constructor <;>
    simp [initOf, State.resetAt, State.commandMode, countFits, Memory.wf, ibufWf]
  all_goals cases Config.env.nbmax <;> simp

theorem witness_inv_proc : (phaseWith .proc []).Inv Config.env := by
  constructor <;> constructor <;>
    simp [phaseWith, State.resetAt, State.commandMode, State.commandDgr, countFits, Memory.wf, ibufWf]
  all_goals first | decide | (cases Config.env.nbmax <;> simp)

theorem witness_inv_done : ({ phaseWith .done [] with ok := true } : State).Inv Config.env := by
  constructor <;> constructor <;>
    simp [phaseWith, State.resetAt, State.commandMode, State.commandDgr, countFits, Memory.wf, ibufWf]
  all_goals first | decide | (cases Config.env.nbmax <;> simp)

theorem witness_inv_failed :
    ({ phaseWith .done [] with cmd := 0x06#8, fail := true, err := some .illegalCommand } : State).Inv Config.env := by
  constructor <;> constructor <;>
    simp [phaseWith, State.resetAt, State.commandMode, State.commandDgr, countFits, Memory.wf, ibufWf]
  all_goals first | decide | (cases Config.env.nbmax <;> simp)

/-- For `StepKeepsInv`: a step from a state that meets the invariant. -/
theorem witness_stepKeepsInv : ∃ t, step (idleWith [.core]) = .next t := ⟨_, rfl⟩

/-- For `StartBeginsACall`, in each of the four phases, at both ends of the byte. -/
theorem witness_start :
    (idleWith [.write (.reg .cmd 255)]).host = .write (.reg .cmd (0xFF#8).toNat) :: [] ∧
      (phaseWith .done [.write (.reg .cmd 0)]).host = .write (.reg .cmd (0x00#8).toNat) :: [] ∧
      (phaseWith .init [.write (.reg .cmd 255)]).host = .write (.reg .cmd (0xFF#8).toNat) :: [] ∧
      (phaseWith .proc [.write (.reg .cmd 0)]).host = .write (.reg .cmd (0x00#8).toNat) :: [] :=
  ⟨rfl, rfl, rfl, rfl⟩

/-- For `WritesWhileBusyAreIgnored`: the last byte of `IV`, the greatest command. -/
theorem witness_busyWrite :
    writeRefusal Config.env (.reg .cmd 255) = none ∧
      writeRefusal Config.env (.iv (Config.env.bs - 1) 0x00#8) = none ∧
      (phaseWith .proc [.write (.reg .cmd 255)]).phase = .proc := by
  refine ⟨rfl, ?_, rfl⟩
  simp [writeRefusal, Env.bs]

/-- For `InputWritesAreReadBack`, each clause at the end of its range. -/
theorem witness_inputWrites (h : List HostEvent) :
    ({ State.resetAt rotinc 0 with host := h } : State).InputsInv rotinc ∧
      ({ State.resetAt rotinc 0 with host := h } : State).phase = .idle ∧ countFits rotinc 3 = true ∧ 3 < rotinc.bs ∧
      blockExists rotinc 2 = true ∧ 7 < lenLimit rotinc := by
  refine ⟨?_, rfl, by decide, by decide, by decide, by decide⟩
  constructor <;> simp [State.resetAt, countFits, rotinc, ibufWf]

/-- For `RegisterMapReads`: a write of `STATUS`, and of register 7. -/
theorem witness_readOnlyWrite :
    (idleWith [.write (.reg .status 5)]).host = .write (.reg .status 5) :: [] ∧
      (idleWith [.write (.reg .reserved 5)]).host = .write (.reg .reserved 5) :: [] := ⟨rfl, rfl⟩

/-- For `WritesOutOfRangeAreRefused`, each clause at the least value it speaks of. -/
theorem witness_outOfRange :
    2 ^ 8 ≤ 256 ∧ countFits rotinc 4 = false ∧ rotinc.bs ≤ 4 ∧ blockExists rotinc 2 = true ∧ lenLimit rotinc ≤ 8 ∧
      blockExists rotinc 3 = false := by decide

/-- A finished call whose output is one byte. -/
def doneOne : State :=
  { State.resetAt rotinc 0 with phase := .done, ok := true, bidx := 1, olen := 1, obuf := [(0, 0x41#8)] }

/-- For `HostReadsTheResult`, each clause at the least index it speaks of. -/
theorem witness_hostReads :
    doneOne.Inv rotinc ∧ doneOne.result rotinc = .present [0x41#8] ∧ [0x41#8][0]? = some 0x41#8 ∧
      outputExists rotinc 12 = false ∧ rotinc.bs ≤ 4 ∧ blockExists rotinc 3 = false := by
  refine ⟨?_, by decide, rfl, by decide, by decide, by decide⟩
  constructor <;> constructor <;>
    simp [doneOne, State.resetAt, State.commandMode, State.commandDgr, Memory.wf, ibufWf, cellRead]
  all_goals decide

/-- For `StepRunsTheLatchedCommand`, each way a step can be reached. -/
theorem witness_stepRuns :
    decodeBytes [(idleWith []).cmd] = .ok (.plainEnc false, []) ∧
      (idleWith [.core]).host = .core :: [] ∧ (phaseWith .init [.wait]).phase ≠ .done ∧
      (phaseWith .done [.wait]).phase = .done := ⟨rfl, rfl, by decide, rfl⟩

/-- For `CoreWaitsInIdleAndDone`. -/
theorem witness_waits : (idleWith []).phase = .idle ∧ (phaseWith .done []).phase = .done := ⟨rfl, rfl⟩

/-- For `IllegalCommandAborts`, `InitOfALegalCommand`, and the first clause of `NeverWrittenInputIsRefused`. -/
theorem witness_init :
    (initOf 0x0A#8).phase = .init ∧ (initOf 0x0A#8).ivUnwritten = [] ∧ (phaseWith .init []).phase = .init ∧
      (phaseWith .init []).ivUnwritten ≠ [] := by
  refine ⟨rfl, rfl, rfl, ?_⟩
  simp [phaseWith, State.resetAt, Env.bs]

/-- For the second clause of `NeverWrittenInputIsRefused`. -/
theorem witness_unwritten :
    (procAt .plain 0 emptyEntry).phase = .proc ∧ (procAt .plain 0 emptyEntry).bidx < (procAt .plain 0 emptyEntry).nblk ∧
      (procAt .plain 0 emptyEntry).blockRead Config.env (procAt .plain 0 emptyEntry).bidx = .unwritten :=
  ⟨rfl, Nat.one_pos, procAt_unwritten _ _⟩

/-- For `DowngradedCommandsRunAsPlain`. -/
theorem witness_downgraded : (phaseWith .done []).host = [] := rfl

/-- For `PlainEncProcessesABlock` and `PlainDecProcessesABlock`, a block and a reserved length. -/
theorem witness_plain :
    (procAt .plain 0 oneByte).phase = .proc ∧ (procAt .plain 0 oneByte).emode = .plain ∧
      (procAt .plain 0 oneByte).bidx < (procAt .plain 0 oneByte).nblk ∧
      (procAt .plain 0 oneByte).blockRead Config.env (procAt .plain 0 oneByte).bidx = .block [0x41#8] ∧
      (procAt .plain 0 reservedEntry).blockRead Config.env (procAt .plain 0 reservedEntry).bidx = .reserved :=
  ⟨rfl, rfl, Nat.one_pos, procAt_block _ _, procAt_reserved _ _⟩

/-- For `CbcEncProcessesABlock` and `CbcDecProcessesABlock`: a reserved length; a block longer than the chaining state;
a block exactly as long, and one in a full chaining state. -/
theorem witness_cbc :
    (procAt .cbc 0 reservedEntry).ChainInv Config.env ∧ (procAt .cbc 0 oneByte).ChainInv Config.env ∧
      (procAt .cbc 1 oneByte).ChainInv Config.env ∧ (procAt .cbc Config.env.bs oneByte).ChainInv Config.env ∧
      (procAt .cbc 0 reservedEntry).blockRead Config.env (procAt .cbc 0 reservedEntry).bidx = .reserved ∧
      (procAt .cbc 0 oneByte).blockRead Config.env (procAt .cbc 0 oneByte).bidx = .block [0x41#8] ∧
      [0x41#8].length > (procAt .cbc 0 oneByte).clen ∧ [0x41#8].length ≤ (procAt .cbc 1 oneByte).clen ∧
      (procAt .cbc 1 oneByte).phase = .proc ∧ (procAt .cbc 1 oneByte).emode = .cbc ∧
      (procAt .cbc 1 oneByte).bidx < (procAt .cbc 1 oneByte).nblk :=
  ⟨procAt_chain _ _ (Nat.zero_le _) (by decide), procAt_chain _ _ (Nat.zero_le _) (by decide),
    procAt_chain _ _ (Nat.succ_le_succ (Nat.zero_le _)) (by decide), procAt_chain _ _ (Nat.le_refl _) (by decide),
    procAt_reserved _ _, procAt_block _ _, Nat.one_pos, Nat.le_refl _, rfl, rfl, Nat.one_pos⟩

/-- For `CfbEncProcessesABlock` and `CfbDecProcessesABlock`. -/
theorem witness_cfb :
    (procAt .cfb 0 oneByte).phase = .proc ∧ (procAt .cfb 0 oneByte).emode = .cfb ∧
      (procAt .cfb 0 oneByte).bidx < (procAt .cfb 0 oneByte).nblk ∧
      (procAt .cfb 0 oneByte).blockRead Config.env (procAt .cfb 0 oneByte).bidx = .block [0x41#8] ∧
      (procAt .cfb 0 reservedEntry).blockRead Config.env (procAt .cfb 0 reservedEntry).bidx = .reserved :=
  ⟨rfl, rfl, Nat.one_pos, procAt_block _ _, procAt_reserved _ _⟩

/-- For `FinishStepCompletesTheCall`, and for `NoStepBeyondTheLastBlock` one block beyond. -/
theorem witness_finish :
    (phaseWith .proc []).phase = .proc ∧ (phaseWith .proc []).bidx = (phaseWith .proc []).nblk ∧
      ({ phaseWith .proc [] with bidx := 1 } : State).nblk < 1 := ⟨rfl, rfl, Nat.one_pos⟩

/-- For `EveryFailureIsTheAbortSequence`: a failure in INIT, and one in PROC. -/
theorem witness_failure :
    (∃ t, exec (.illegalMode 0x06#8) (phaseWith .init []) = .next t ∧ t.phase = .done ∧ t.fail = true) ∧
      (phaseWith .init []).fail = false ∧
      (∃ t, exec (.plainEnc false) (procAt .plain 0 reservedEntry) = .next t ∧ t.phase = .done ∧ t.fail = true) ∧
      (procAt .plain 0 reservedEntry).fail = false := by
  refine ⟨⟨_, rfl, rfl, rfl⟩, rfl, ?_, rfl⟩
  rw [exec_eq]
  simp only [execIn, sequencerStep, blockStep, procAt_reserved]
  exact ⟨_, rfl, rfl, rfl⟩

/-- For `StepsNeverWriteTheInputs`, `OutputChangesOnlyByAppending`, `PlainNeverTouchesTheChain`,
`TransformDirectionIsTdir` and `CfbForwardOnly`: a step on a block, in each mode. -/
theorem witness_blockStep :
    (∃ t, exec (.plainEnc false) (procAt .plain 0 oneByte) = .next t) ∧
      (∃ t, exec .cbcDec (procAt .cbc 1 oneByte) = .next t) ∧ (∃ t, exec .cfbDec (procAt .cfb 1 oneByte) = .next t) ∧
      (procAt .plain 0 oneByte).emode = .plain ∧ (procAt .cfb 1 oneByte).emode = .cfb ∧
      (procAt .cfb 1 oneByte).phase = .proc :=
  ⟨procAt_steps _ _ _, procAt_steps _ _ _, procAt_steps _ _ _, rfl, rfl, rfl⟩

/-- For `PhaseTransitions` and `BlockIndexMoves`: a step of the whole of every kind. -/
theorem witness_moves :
    (∃ t, step (phaseWith .proc [.reset]) = .next t ∧ t.phase = .idle) ∧
      (∃ t, step (idleWith [.write (.reg .cmd 0)]) = .next t ∧ t.phase = .init) ∧
      (∃ t, step (initOf 0x0A#8) = .next t ∧ t.phase = .proc) ∧ (∃ t, step (initOf 0x06#8) = .next t ∧ t.phase = .done) ∧
      (∃ t, step (phaseWith .proc []) = .next t ∧ t.phase = .done) :=
  ⟨⟨_, rfl, rfl⟩, ⟨_, rfl, rfl⟩, ⟨_, rfl, rfl⟩, ⟨_, rfl, rfl⟩, ⟨_, rfl, rfl⟩⟩

/-- For `ReadyCallsNeverStop`, `CallsEndInTime`, `NothingLeaksBetweenCalls` and the second half of
`CallRunsAsTheWholeCallFunction`: a call on no blocks, which any capacity allows. -/
theorem witness_ready (code : BitVec 8) :
    (initOf code).Inv Config.env ∧ (initOf code).host = [] ∧ (initOf code).phase = .init ∧
      (initOf code).InputsWritten Config.env ∧ (initOf code).blocks Config.env = some [] ∧
      (initOf code).ivUnwritten = [] := by
  refine ⟨witness_inv_init code, rfl, rfl, ⟨fun i hi => ?_, fun _ _ => rfl⟩, rfl, rfl⟩
  simp [initOf, State.resetAt] at hi

/-- A call on one one-byte block. -/
def initOne (code : BitVec 8) : State := { initOf code with nblk := 1, ibuf := [(0, oneByte)] }

/-- The same for a call on one block, wherever the machine has room for a block. -/
theorem witness_ready_one (code : BitVec 8) (h : countFits Config.env 1 = true) :
    (initOne code).Inv Config.env ∧ (initOne code).host = [] ∧ (initOne code).phase = .init ∧
      (initOne code).InputsWritten Config.env ∧ (initOne code).blocks Config.env = some [[0x41#8]] := by
  have h0 : countFits Config.env 0 = true := by
    unfold countFits
    cases Config.env.nbmax <;> simp
  have hb : blockExists Config.env 0 = true := by
    unfold blockExists
    unfold countFits at h
    cases he : Config.env.nbmax <;> simp_all
    omega
  have hl : 1 < lenLimit Config.env := by
    have := Nat.lt_log2_self (n := Config.env.bs)
    unfold lenLimit
    unfold Env.bs at *
    omega
  have hr : (initOne code).blockRead Config.env 0 = .block [0x41#8] := by
    simp [State.blockRead, initOne, oneByte, entryAt, cellRead, readBytes, Env.bs]
  obtain ⟨⟨a1, a2, a3, a4, a5⟩, b, ⟨c1, c2, c3, c4, c5, c6⟩, d, e, f⟩ := witness_inv_init code
  refine ⟨⟨⟨a1, a2, h, ?_, ?_⟩, ⟨b.1, b.2, b.3⟩, ⟨by simp [initOne, initOf], c2, c3, c4, h0, by simp [initOne, initOf]⟩,
    ⟨d.1, d.2, d.3, d.4⟩, ⟨e.1, e.2, e.3, e.4⟩, ⟨f.1, f.2, f.3⟩⟩, rfl, rfl, ⟨fun i hi => ?_, fun _ _ => rfl⟩, ?_⟩
  · simp [initOne, oneByte, ibufWf, Memory.wf, emptyEntry]
  · simp [initOne, oneByte, EntryInRange, hb, hl, Env.bs]
  · have : i = 0 := by simpa [initOne] using hi
    rw [this, hr]
    simp
  · simp only [State.blocks, initOne, State.blocksFrom]
    rw [show State.blockRead Config.env { initOf code with nblk := 1, ibuf := [(0, oneByte)] } 0 = _ from hr]

/-- For `NothingLeaksBetweenCalls`: the same call in a state with another history (another effective mode and
number of resets). -/
theorem witness_twoHistories (code : BitVec 8) :
    ({ initOf code with emode := .cbc, epoch := 2 } : State).Inv Config.env ∧
      ({ initOf code with emode := .cbc, epoch := 2 } : State) ≠ initOf code := by
  obtain ⟨a, b, ⟨c1, _, c3, c4, c5, c6⟩, d, e, f⟩ := witness_inv_init code
  refine ⟨⟨⟨a.1, a.2, a.3, a.4, a.5⟩, ⟨b.1, b.2, ?_⟩, ⟨c1, fun h => absurd rfl h, c3, c4, c5, c6⟩,
    ⟨d.1, d.2, d.3, d.4⟩, ⟨e.1, e.2, e.3, e.4⟩, ⟨f.1, ?_, ?_⟩⟩, fun h => ?_⟩
  · exact fun _ => ⟨rfl, rfl⟩
  · exact fun h => absurd rfl h
  · exact fun h => absurd h (by simp [initOf])
  · exact absurd (congrArg State.epoch h) (by simp [initOf, State.resetAt])

/-- For the first half of `CallRunsAsTheWholeCallFunction`: R153's state, with a block to process. -/
theorem witness_blocks :
    ({ onInit 0x0A#8 with nblk := 1, ibuf := [(0, { len := some 1, data := [(0, 0x41#8)] })] } : State).blocks rotinc =
      some [[0x41#8]] := rfl

/-- For `EmptyInputIsASuccess`, every legal command. -/
theorem witness_emptyInput :
    ∀ code ∈ [0x00#8, 0x01#8, 0x02#8, 0x03#8, 0x04#8, 0x05#8, 0x08#8, 0x09#8, 0x0A#8, 0x0B#8, 0x0C#8, 0x0D#8],
      (initOf code).host = [] ∧ (initOf code).phase = .init ∧ (initOf code).nblk = 0 ∧ (initOf code).fail = false ∧
        (initOf code).xlog = [] ∧ (instrMode (decodeCmd code)).isSome = true ∧ (initOf code).ivUnwritten = [] := by
  intro code h
  refine ⟨rfl, rfl, rfl, rfl, rfl, ?_, rfl⟩
  revert code
  decide

/-- For `PlainCallConcatenatesTheAnswers`, each clause. -/
theorem witness_plainCall :
    [[0x01#8], [0x02#8]].map (rotinc.xform .fwd) = [[0x02#8], [0x03#8]].map XAnswer.ok ∧
      failing.xform .inv [0x01#8] = .fail ∧ tooLong.xform .fwd [0x01#8] = .ok (List.replicate 5 0x00#8) ∧
      (List.replicate 5 0x00#8).length > tooLong.bs := by decide

/-- For `CfbKeepsTheLength`, with 95_test_vectors' short last block. -/
theorem witness_cfbLength :
    process rotinc 0x0C#8 [0x10#8, 0x20#8, 0x30#8, 0x40#8] [[0x01#8, 0x02#8, 0x03#8, 0x04#8], [0x05#8]] =
      .present [0x20#8, 0x33#8, 0x42#8, 0x15#8, 0x31#8] := by decide

/-- For `CbcRoundTrip` and `CfbRoundTrip`: ROTINC is such a transform, and such blocks exist. -/
theorem witness_roundTrip :
    ForwardTotal rotinc ∧ InverseUndoes rotinc ∧
      WellFormedBlocks rotinc [[0x01#8, 0x02#8, 0x03#8, 0x04#8], [0x05#8]] ∧
      (∀ b ∈ [[0x01#8, 0x02#8, 0x03#8, 0x04#8]], b.length = rotinc.bs) := by
  refine ⟨fun x hx => ⟨_, rfl, ?_⟩, fun x y hx hy => ?_, ?_, by decide⟩
  · simp [rotFwd, rotinc, Env.bs] at hx ⊢
    omega
  · match x, hx with
    | [a, b, c, d], _ =>
      cases hy
      simp [rotinc, rotFwd, rotInv]
  · constructor <;> decide

end Sys2Proof.Tests
end

section
/-! SUPPORT. The state family (10_state): what the pieces of state hold after reset, how the host reads and writes them,
how `PHASE` and `BIDX` move, and when the chaining state is left alone. -/

namespace Sys2Proof.Machine

/-! ### Host writes: refused, accepted, or without effect (R38) -/

@[simp] theorem State.busy_eq_false (s : State) : s.busy = false ↔ s.phase = .idle ∨ s.phase = .done := by
  unfold State.busy
  cases s.phase <;> simp

/-- A pending write is the next thing that happens. -/
theorem stepIn_write {e : Env} {s : State} {w : HostWrite} {rest : List HostEvent} (h : s.host = .write w :: rest) :
    stepIn e s = hostWrite e w { s with host := rest } := by
  unfold stepIn stepBy
  rw [h]

theorem hostWrite_refused {e : Env} {w : HostWrite} {r : Refusal} (h : writeRefusal e w = some r) (s : State) :
    hostWrite e w s = .refused r := by
  unfold hostWrite
  rw [h]

theorem hostWrite_accepted {e : Env} {s : State} {w : HostWrite} (h : writeRefusal e w = none)
    (hp : s.phase = .idle ∨ s.phase = .done) : hostWrite e w s = .next (s.applyWrite w) := by
  simp [hostWrite, h, (State.busy_eq_false s).2 hp]

/-- A write that changes nothing where it is accepted changes nothing in any phase. -/
theorem hostWrite_keeps {e : Env} {s : State} {w : HostWrite} (h : writeRefusal e w = none)
    (hw : s.applyWrite w = s) : hostWrite e w s = .next s := by
  simp [hostWrite, h, hw]

/-- A pending write that cannot be made is refused in every phase. -/
theorem stepIn_write_refused {e : Env} {s : State} {w : HostWrite} {rest : List HostEvent} {r : Refusal}
    (h : s.host = .write w :: rest) (hr : writeRefusal e w = some r) : stepIn e s = .refused r :=
  (stepIn_write h).trans (hostWrite_refused hr _)

/-- A pending write that can be made has its effect in IDLE and DONE. -/
theorem stepIn_write_accepted {e : Env} {s : State} {w : HostWrite} {rest : List HostEvent}
    (h : s.host = .write w :: rest) (hr : writeRefusal e w = none) (hp : s.phase = .idle ∨ s.phase = .done) :
    stepIn e s = .next (State.applyWrite w { s with host := rest }) :=
  (stepIn_write h).trans (hostWrite_accepted hr hp)

/-- A register other than `CMD` and `NBLK` keeps its value under any write, which is never refused (R38; log 10). -/
theorem write_readOnly {r : HostReg} (hc : r ≠ .cmd) (hn : r ≠ .nblk) (e : Env) (s : State) (v : Nat) :
    writeRefusal e (.reg r v) = none ∧ s.applyWrite (.reg r v) = s := by
  cases r
  case cmd => exact absurd rfl hc
  case nblk => exact absurd rfl hn
  all_goals exact ⟨rfl, rfl⟩

/-- Settles O14: the register map is read off its definition; a write of any register but `CMD` and `NBLK` is accepted
and has no effect. -/
theorem registerMapReads : Obligations.RegisterMapReads := by
  refine ⟨fun s => ⟨rfl, rfl, rfl, rfl, rfl, rfl, rfl, rfl, fun n hn => ?_⟩, fun s r v rest hc hn h => ?_⟩
  · obtain ⟨m, rfl⟩ := Nat.exists_eq_add_of_le' hn
    rfl
  · obtain ⟨hr, hw⟩ := write_readOnly hc hn Config.env { s with host := rest } v
    rw [step_eq, stepIn_write h, hostWrite_keeps hr hw]

/-- Settles O15: each of these writes has a refusal, and a write with a refusal is refused in every phase. -/
theorem writesOutOfRangeAreRefused : Obligations.WritesOutOfRangeAreRefused := by
  refine ⟨step_eq, fun e s rest => ⟨fun v hv h => ?_, fun n hn h => ?_, fun j b hj h => ?_, fun i n hi hn h => ?_,
    fun i n hi h => ?_, fun i j b hij h => ?_⟩⟩ <;> refine stepIn_write_refused h ?_
  · exact if_neg (Nat.not_lt.2 hv)
  · simp [writeRefusal, hn]
  · simp [writeRefusal, hj]
  · simp [writeRefusal, hi, hn]
  · simp [writeRefusal, hi]
  · rcases hij with hi | hj
    · simp [writeRefusal, hi]
    · simp [writeRefusal, hj]

/-! ### `IBUF` after a write, and what a host read depends on -/

@[simp] theorem entryAt_nil (i : Nat) : entryAt [] i = emptyEntry := rfl

/-- `IBUF` after one entry was written. -/
theorem entryAt_cellWrite (ibuf : List (Nat × InEntry)) (i k : Nat) (en : InEntry) :
    entryAt (cellWrite ibuf i en) k = if i = k then en else entryAt ibuf k := by
  unfold entryAt
  rw [cellRead_write]
  split <;> rfl

/-- A change of the entry at `i`, seen at every index. -/
theorem State.entryAt_updateEntry (s : State) (i k : Nat) (f : InEntry → InEntry) :
    entryAt (s.updateEntry i f).ibuf k = if i = k then f (entryAt s.ibuf k) else entryAt s.ibuf k := by
  rw [State.updateEntry_ibuf, entryAt_cellWrite]
  split
  · next h => rw [h]
  · rfl

/-- A host read of a length depends on that length, and on the free values since reset. -/
theorem hostRead_ibufLen_congr {e : Env} {s t : State} {k : Nat} (he : t.epoch = s.epoch)
    (h : (entryAt t.ibuf k).len = (entryAt s.ibuf k).len) : hostRead e (.ibufLen k) t = hostRead e (.ibufLen k) s := by
  simp [hostRead, State.ibufLenRead, h, he]

/-- A host read of a data byte depends on that byte, and on the free values since reset. -/
theorem hostRead_ibufData_congr {e : Env} {s t : State} {k l : Nat} (he : t.epoch = s.epoch)
    (h : cellRead (entryAt t.ibuf k).data l = cellRead (entryAt s.ibuf k).data l) :
    hostRead e (.ibufData k l) t = hostRead e (.ibufData k l) s := by
  simp [hostRead, State.ibufByte, h, he]

/-! ### Each input write, seen through the host's reads (R24 to R26) -/

section inputWrites

variable (e : Env) (s : State)

/-- A byte of `IV` is read back. -/
theorem hostRead_iv_write_same {j : Nat} (b : Byte) (hj : j < e.bs) (hl : s.iv.length = e.bs) :
    hostRead e (.iv j) (s.applyWrite (.iv j b)) = .ok b.toNat := by
  simp [hostRead, State.applyWrite, State.ivByte, hj, hl]

/-- A write of one byte of `IV` is not seen at another. -/
theorem hostRead_iv_write_other {j k : Nat} (b : Byte) (h : k ≠ j) :
    hostRead e (.iv k) (s.applyWrite (.iv j b)) = hostRead e (.iv k) s := by
  simp [hostRead, State.applyWrite, State.ivByte, h.symm]

/-- A length is read back. -/
theorem hostRead_ibufLen_writeLen_same {i : Nat} (n : Nat) (hi : blockExists e i = true) :
    hostRead e (.ibufLen i) (s.applyWrite (.ibufLen i n)) = .ok n := by
  simp [hostRead, State.applyWrite, State.ibufLenRead, entryAt_cellWrite, hi]

/-- A write of one length is not seen in another. -/
theorem hostRead_ibufLen_writeLen_other {i k : Nat} (n : Nat) (h : k ≠ i) :
    hostRead e (.ibufLen k) (s.applyWrite (.ibufLen i n)) = hostRead e (.ibufLen k) s :=
  hostRead_ibufLen_congr rfl (by rw [State.applyWrite, State.entryAt_updateEntry, if_neg h.symm])

/-- A write of a length is not seen in any data byte. -/
theorem hostRead_ibufData_writeLen (i n k l : Nat) :
    hostRead e (.ibufData k l) (s.applyWrite (.ibufLen i n)) = hostRead e (.ibufData k l) s :=
  hostRead_ibufData_congr rfl (by rw [State.applyWrite, State.entryAt_updateEntry]; split <;> rfl)

/-- A data byte is read back. -/
theorem hostRead_ibufData_writeData_same {i j : Nat} (b : Byte) (hi : blockExists e i = true) (hj : j < e.bs) :
    hostRead e (.ibufData i j) (s.applyWrite (.ibufData i j b)) = .ok b.toNat := by
  simp [hostRead, State.applyWrite, State.ibufByte, entryAt_cellWrite, cellRead_write_same, hi, hj]

/-- A write of one data byte is not seen in another, of the same block or of another. -/
theorem hostRead_ibufData_writeData_other {i j k l : Nat} (b : Byte) (h : k ≠ i ∨ l ≠ j) :
    hostRead e (.ibufData k l) (s.applyWrite (.ibufData i j b)) = hostRead e (.ibufData k l) s := by
  refine hostRead_ibufData_congr rfl ?_
  rw [State.applyWrite, State.entryAt_updateEntry]
  split
  · next hik => exact cellRead_write_other _ b (h.resolve_left (not_not.2 hik.symm)).symm
  · rfl

/-- A write of a data byte is not seen in any length. -/
theorem hostRead_ibufLen_writeData (i j k : Nat) (b : Byte) :
    hostRead e (.ibufLen k) (s.applyWrite (.ibufData i j b)) = hostRead e (.ibufLen k) s :=
  hostRead_ibufLen_congr rfl (by rw [State.applyWrite, State.entryAt_updateEntry]; split <;> rfl)

end inputWrites

/-- Settles O13: each of these writes has no refusal, so in IDLE and DONE it has its effect, of which the lemmas above
say what the host's reads see. -/
theorem inputWritesAreReadBack : Obligations.InputWritesAreReadBack := by
  refine ⟨step_eq, fun e s rest hin hp => ⟨fun n hn h => ?_, fun j b hj h => ?_, fun i n hi hn h => ?_,
    fun i j b hi hj h => ?_⟩⟩
  · exact stepIn_write_accepted h (by simp [writeRefusal, hn]) hp
  · refine ⟨_, stepIn_write_accepted h (by simp [writeRefusal, hj]) hp, rfl, ?_, fun k hk => ?_, fun k => ?_⟩
    · exact hostRead_iv_write_same e _ b hj hin.ivLength
    · exact hostRead_iv_write_other e _ b hk
    · simp [State.applyWrite]
  · refine ⟨_, stepIn_write_accepted h (by simp [writeRefusal, hi, hn]) hp, rfl, ?_, fun k hk => ?_, fun k l => ?_⟩
    · exact hostRead_ibufLen_writeLen_same e _ n hi
    · exact hostRead_ibufLen_writeLen_other e _ n hk
    · exact hostRead_ibufData_writeLen e _ i n k l
  · refine ⟨_, stepIn_write_accepted h (by simp [writeRefusal, hi, hj]) hp, rfl, ?_, fun k l hkl => ?_, fun k => ?_⟩
    · exact hostRead_ibufData_writeData_same e _ b hi hj
    · exact hostRead_ibufData_writeData_other e _ b hkl
    · exact hostRead_ibufLen_writeData e _ i j k b

/-! ### The result as the host reads it (R34, R37) -/

theorem State.result_eq_present {e : Env} {s : State} {out : Block} :
    s.result e = .present out ↔ s.phase = .done ∧ s.ok = true ∧ s.output e = out := by
  unfold State.result
  cases s.phase <;> cases s.ok <;> simp

/-- Byte `k` of the output stream is byte `k` of `OBUF`, below `OLEN`. -/
theorem output_getElem?_eq_some {e : Env} {s : State} {k : Nat} {b : Byte} (h : (s.output e)[k]? = some b) :
    k < s.olen ∧ s.obufByte e k = b := by
  obtain ⟨hk, rfl⟩ := List.getElem?_eq_some_iff.1 h
  exact ⟨by simpa using hk, by simp [State.output]⟩

/-- The output stream lies within the range of `OBUF`. -/
theorem State.OutputInv.outputExists_of_lt {e : Env} {s : State} (h : s.OutputInv e) {k : Nat} (hk : k < s.olen) :
    outputExists e k = true := by
  obtain ⟨b, hb⟩ := Option.isSome_iff_exists.1 (h.outputWritten k hk)
  exact h.obufRange _ (cellRead_mem hb)

/-- Settles O16: the result is the output stream, whose bytes are in range and read as stored. -/
theorem hostReadsTheResult : Obligations.HostReadsTheResult := by
  refine fun e s => ⟨fun out hinv hres => ?_, fun k hk => ?_, fun j hj => ?_, fun i hi => ?_, fun i j hij => ?_⟩
  · obtain ⟨-, -, rfl⟩ := State.result_eq_present.1 hres
    refine ⟨by simp [hostRead, State.readReg], fun k b hkb => ?_⟩
    obtain ⟨hk, rfl⟩ := output_getElem?_eq_some hkb
    simp [hostRead, State.obufRead, hk, hinv.output.outputExists_of_lt hk]
  · simp [hostRead, hk]
  · simp [hostRead, hj]
  · simp [hostRead, hi]
  · rcases hij with hi | hj
    · simp [hostRead, hi]
    · simp [hostRead, hj]

/-! ### Reset (R40) -/

/-- After a reset no block can be read. -/
theorem blockRead_resetAt (e : Env) (epoch i : Nat) : (State.resetAt e epoch).blockRead e i = .unwritten := rfl

/-- Settles O5: each value is the one `State.resetAt` states. -/
theorem resetValues : Obligations.ResetValues :=
  ⟨rfl, rfl, rfl, rfl, rfl, rfl, rfl, rfl, rfl, rfl, rfl, rfl, rfl, rfl, blockRead_resetAt Config.env 0, cellRead_nil⟩

/-! ### A call that would read what nothing has written (R294) -/

theorem State.ivRead_eq_none {s : State} (h : s.ivUnwritten ≠ []) : s.ivRead = none := by
  unfold State.ivRead
  cases hu : s.ivUnwritten with
  | nil => exact absurd hu h
  | cons j rest => rfl

/-- The INIT step of a command whose effective mode chains, where a byte of `IV` is unwritten. -/
theorem initLegal_neverWritten {e : Env} {mode : Mode} {ivp : Bool} {s : State} (hm : effectiveMode mode ivp ≠ .plain)
    (h : s.ivUnwritten ≠ []) : initLegal e mode ivp s = .refused .neverWrittenInput := by
  unfold initLegal
  rw [State.ivRead_eq_none h]
  cases hem : effectiveMode mode ivp with
  | plain => exact absurd hem hm
  | cbc => rfl
  | cfb => rfl

/-- In INIT a legal command's step is the legal INIT step. -/
theorem execIn_init_legal {e : Env} {i : Instr} {m : Mode} {s : State} (hp : s.phase = .init)
    (hm : instrMode i = some m) : execIn e i s = initLegal e m (instrIvp i) s := by
  simp [execIn, sequencerStep, initStep, hp, hm]

/-- In PROC, before the last block, every command's step is the per-block step. -/
theorem execIn_proc_block {e : Env} {s : State} (i : Instr) (hp : s.phase = .proc) (hb : s.bidx < s.nblk) :
    execIn e i s = blockStep e (engineFor s.emode (instrDir i)) s := by
  simp [execIn, sequencerStep, hp, hb, hb.ne]

/-- The four commands that keep their chaining mode. -/
theorem chaining_commands :
    ∀ i ∈ [Instr.cbcEnc, .cbcDec, .cfbEnc, .cfbDec],
      ∃ m, instrMode i = some m ∧ effectiveMode m (instrIvp i) ≠ .plain := by
  simp only [List.forall_mem_cons]
  exact ⟨⟨.cbc, by decide⟩, ⟨.cbc, by decide⟩, ⟨.cfb, by decide⟩, ⟨.cfb, by decide⟩, List.forall_mem_nil _⟩

/-- Settles O21: the INIT step reads `IV` where the command chains, the per-block step reads its block in every mode. -/
theorem neverWrittenInputIsRefused : Obligations.NeverWrittenInputIsRefused := by
  refine ⟨fun s hp hu i hi => ?_, fun i s hp hb hr => ?_⟩
  · obtain ⟨m, hm, hem⟩ := chaining_commands i hi
    rw [exec_eq, execIn_init_legal hp hm, initLegal_neverWritten hem hu]
  · rw [exec_eq, execIn_proc_block i hp hb]
    simp [blockStep, hr]

/-! ### The control state: how `PHASE` and `BIDX` move (R30, R31) -/

section chainToFrame

variable (s : State) (c : Option Block)

@[simp] theorem State.chainTo_phase : (s.chainTo c).phase = s.phase := by cases c <;> rfl
@[simp] theorem State.chainTo_bidx : (s.chainTo c).bidx = s.bidx := by cases c <;> rfl
@[simp] theorem State.chainTo_nblk : (s.chainTo c).nblk = s.nblk := by cases c <;> rfl

end chainToFrame

/-- The moves of the control state in a sequencer's step: the core waits, the INIT step, a block done, the call ended
(with `OK` only where every block is done). -/
theorem sequencerStep_control {e : Env} {mode : Option Mode} {ivp : Bool} {dir : Dir} {s t : State}
    (h : sequencerStep e mode ivp dir s = .next t) :
    ((s.phase = .idle ∨ s.phase = .done) ∧ t = s) ∨
    (s.phase = .init ∧ t.bidx = 0 ∧ (t.phase = .proc ∨ t.phase = .done)) ∨
    (s.phase = .proc ∧ t.phase = .proc ∧ s.bidx < s.nblk ∧ t.bidx = s.bidx + 1 ∧ t.nblk = s.nblk) ∨
    (s.phase = .proc ∧ t.phase = .done ∧ t.bidx = s.bidx ∧ (t.ok = true → t.bidx = t.nblk)) := by
  rcases sequencerStep_cases h with ⟨hp, rfl⟩ | ⟨hp, -, rfl⟩ | ⟨m, hp, -, -, rfl⟩ | ⟨m, hp, -, -, -, rfl⟩ |
    ⟨hp, hn, rfl⟩ | ⟨hp, -, -, rfl⟩ | ⟨b, hp, hb, -, rfl⟩
  · exact .inl ⟨hp, rfl⟩
  · exact .inr (.inl ⟨hp, rfl, .inr rfl⟩)
  · exact .inr (.inl ⟨hp, rfl, .inl rfl⟩)
  · exact .inr (.inl ⟨hp, rfl, .inl rfl⟩)
  · exact .inr (.inr (.inr ⟨hp, rfl, rfl, fun _ => hn⟩))
  · exact .inr (.inr (.inr ⟨hp, rfl, rfl, by simp⟩))
  · obtain ⟨c, -, ha⟩ | ⟨out, next, -, ha⟩ := applyRun_cases e (engineFor s.emode dir e s.chainBlock b) s
    · rw [ha]
      exact .inr (.inr (.inr ⟨hp, rfl, rfl, by simp⟩))
    · rw [ha]
      exact .inr (.inr (.inl ⟨hp, by simp [hp], hb, by simp, by simp⟩))

/-- A host write moves `PHASE` only as START. -/
theorem applyWrite_phase (w : HostWrite) (s : State) :
    (s.applyWrite w).phase = s.phase ∨ ((∃ v, w = .reg .cmd v) ∧ (s.applyWrite w).phase = .init) := by
  cases w with
  | reg r v =>
    cases r
    case cmd => exact .inr ⟨⟨v, rfl⟩, rfl⟩
    all_goals exact .inl rfl
  | iv j b => exact .inl rfl
  | ibufLen i n => exact .inl rfl
  | ibufData i j b => exact .inl rfl

/-- No host write moves `BIDX`. -/
@[simp] theorem applyWrite_bidx (w : HostWrite) (s : State) : (s.applyWrite w).bidx = s.bidx := by
  cases w with
  | reg r v => cases r <;> rfl
  | iv j b => rfl
  | ibufLen i n => rfl
  | ibufData i j b => rfl

/-- The moves of `PHASE` in a sequencer's step. -/
theorem execIn_phase {e : Env} {i : Instr} {s t : State} (h : execIn e i s = .next t) :
    t.phase = s.phase ∨ (s.phase = .init ∧ (t.phase = .proc ∨ t.phase = .done)) ∨
      (s.phase = .proc ∧ t.phase = .done) := by
  obtain ⟨-, rfl⟩ | ⟨hp, -, ht⟩ | ⟨hp, ht, -⟩ | ⟨hp, ht, -⟩ := sequencerStep_control h
  · exact .inl rfl
  · exact .inr (.inl ⟨hp, ht⟩)
  · exact .inl (ht.trans hp.symm)
  · exact .inr (.inr ⟨hp, ht⟩)

/-- Settles O37: the sequencer's own moves, START as the one host write that moves the phase, and reset. -/
theorem phaseTransitions : Obligations.PhaseTransitions := by
  intro s t h
  rw [step_eq] at h
  rcases stepIn_cases h with hx | ⟨rest, -, hx⟩ | ⟨rest, -, -, rfl⟩ | ⟨rest, hh, rfl⟩ | ⟨w, rest, hh, -, hw⟩
  · exact (execIn_phase hx).imp_right (.inr ∘ .inr)
  · exact (execIn_phase hx).imp_right (.inr ∘ .inr)
  · exact .inl rfl
  · exact .inr (.inl ⟨rfl, rest, hh⟩)
  · obtain ⟨-, rfl⟩ | ⟨hb, rfl⟩ := hw
    · exact .inl rfl
    · refine (applyWrite_phase w { s with host := rest }).imp_right fun ⟨⟨v, hv⟩, hi⟩ => .inr (.inl ?_)
      exact ⟨(State.busy_eq_false s).1 hb, hi, v, rest, hv ▸ hh⟩

/-- The moves of `BIDX` in a sequencer's step. -/
theorem execIn_bidx {e : Env} {i : Instr} {s t : State} (h : execIn e i s = .next t) :
    (t.bidx = 0 ∧ s.phase = .init) ∨ (t.bidx = s.bidx + 1 ∧ s.phase = .proc ∧ t.phase = .proc ∧ t.bidx ≤ t.nblk) ∨
      (t.bidx = s.bidx ∧ (s.phase = .proc → t.phase = .done → t.ok = true → t.bidx = t.nblk)) := by
  obtain ⟨hp, rfl⟩ | ⟨hp, h0, -⟩ | ⟨hp, ht, hlt, hb, hn⟩ | ⟨-, -, hb, hok⟩ := sequencerStep_control h
  · refine .inr (.inr ⟨rfl, fun hproc => ?_⟩)
    simp [hproc] at hp
  · exact .inl ⟨h0, hp⟩
  · exact .inr (.inl ⟨hb, hp, ht, by omega⟩)
  · exact .inr (.inr ⟨hb, fun _ _ => hok⟩)

/-- Settles O38: the sequencer's own moves; a host event other than reset keeps `BIDX`, and none of them ends a call. -/
theorem blockIndexMoves : Obligations.BlockIndexMoves := by
  intro s t h
  rw [step_eq] at h
  rcases stepIn_cases h with hx | ⟨rest, -, hx⟩ | ⟨rest, -, hd, rfl⟩ | ⟨rest, hh, rfl⟩ | ⟨w, rest, -, -, hw⟩
  · exact (execIn_bidx hx).imp_left (.imp_right .inr)
  · exact (execIn_bidx hx).imp_left (.imp_right .inr)
  · exact .inr (.inr ⟨rfl, fun hproc => by simp [hproc] at hd⟩)
  · exact .inl ⟨rfl, .inl ⟨rest, hh⟩⟩
  · obtain ⟨-, rfl⟩ | ⟨hb, rfl⟩ := hw
    · exact .inr (.inr ⟨rfl, fun hproc hdone => by simp [hproc] at hdone⟩)
    · refine .inr (.inr ⟨applyWrite_bidx .., fun hproc => ?_⟩)
      simp [hproc] at hb

/-! ### The Plain engine and the chaining state (R27, R170) -/

/-- The algorithm of both Plain commands makes no new chaining block. -/
theorem plainBlock_next_eq_none {e : Env} {d : TDir} {b out : Block} {next : Option Block}
    (h : (plainBlock e d b).verdict = .ok out next) : next = none := by
  simp only [plainBlock] at h
  split at h
  · cases h
  · split at h
    · cases h
    · cases h
      rfl

/-- The Plain engine makes no new chaining block, in either direction. -/
theorem plainEngine_next_eq_none {e : Env} {dir : Dir} {chain b out : Block} {next : Option Block}
    (h : (engineFor .plain dir e chain b).verdict = .ok out next) : next = none := by
  cases dir with
  | encrypt => exact plainBlock_next_eq_none (d := .fwd) h
  | decrypt => exact plainBlock_next_eq_none (d := .inv) h

/-- Settles O34: a step in PROC ends the call, which discards the chaining state, or does a block, where the Plain
engine makes no chaining block. -/
theorem plainNeverTouchesTheChain : Obligations.PlainNeverTouchesTheChain := by
  intro i s t hp hm h
  rw [exec_eq] at h
  rcases sequencerStep_cases h with ⟨hp', -⟩ | ⟨hp', -⟩ | ⟨m, hp', -⟩ | ⟨m, hp', -⟩ | ⟨-, -, rfl⟩ | ⟨-, -, -, rfl⟩ |
    ⟨b, -, -, -, rfl⟩
  · simp [hp] at hp'
  · simp [hp] at hp'
  · simp [hp] at hp'
  · simp [hp] at hp'
  · exact .inr ⟨rfl, rfl, rfl⟩
  · exact .inr ⟨rfl, rfl, rfl⟩
  · rw [hm]
    obtain ⟨c, -, ha⟩ | ⟨out, next, hv, ha⟩ := applyRun_cases Config.env
      (engineFor .plain (instrDir i) Config.env s.chainBlock b) s
    · rw [ha]
      exact .inr ⟨rfl, rfl, rfl⟩
    · obtain rfl := plainEngine_next_eq_none hv
      rw [ha]
      exact .inl ⟨hp, rfl, rfl⟩

end Sys2Proof.Machine
end

section
/-! SUPPORT. The memory family (20_memory): the inputs no step of a call writes, the output buffer that grows by
appending alone, and the length of a CFB call's output. -/

namespace Sys2Proof.Machine

/-! ### How a block ends, and what that leaves unchanged (R78, R128, R256) -/

/-- The abort sequence writes what R256 says and nothing else, whatever transform invocations were recorded before it.
-/
theorem logEvents_abort_aborted (e : Env) (s : State) (es : List XEvent) (cause : Cause) :
    Aborted e s ((s.logEvents es).abort e cause) cause where
  frame := ⟨rfl, rfl, rfl, rfl, rfl, rfl, rfl⟩
  err := rfl
  fail := rfl
  ok := rfl
  olen := rfl
  chain := rfl
  clen := rfl
  phase := rfl
  bidx := rfl
  emode := rfl
  dgr := rfl
  obuf := rfl

/-- A result applied in PROC is a processed block: the new bytes lie from the old `OLEN` on. -/
theorem append_blockDone {s : State} (hp : s.phase = .proc) (es : List XEvent) (out : Block) (next : Option Block) :
    BlockDone s (((s.logEvents es).append out).chainTo next).advance out next := by
  have stored : ∀ j < out.length, cellRead (writeBytes s.obuf s.olen out) (s.olen + j) = out[j]? := fun j hj => by
    rw [cellRead_writeBytes, if_pos (by omega), Nat.add_sub_cancel_left]
  have outside : ∀ k, (k < s.olen ∨ s.olen + out.length ≤ k) →
      cellRead (writeBytes s.obuf s.olen out) k = cellRead s.obuf k := fun k hk => by
    rw [cellRead_writeBytes, if_neg (by omega)]
  have frame : SameInputs s (((s.logEvents es).append out).chainTo next).advance := by
    cases next <;> constructor <;> rfl
  cases next with
  | none => exact ⟨frame, hp, rfl, rfl, rfl, rfl, rfl, rfl, rfl, stored, outside, rfl, rfl⟩
  | some c => exact ⟨frame, hp, rfl, rfl, rfl, rfl, rfl, rfl, rfl, stored, outside, rfl, rfl⟩

/-- An engine's verdict applied in PROC ends the block in the way that R128 gives for the verdict. -/
theorem applyRun_blockEnds (e : Env) {s : State} (hp : s.phase = .proc) (r : EngineRun) :
    BlockEnds e s (applyRun e r s) r.verdict := by
  unfold applyRun
  cases r.verdict with
  | raise cause => exact logEvents_abort_aborted e s r.events cause
  | ok out next => exact append_blockDone hp r.events out next

/-- Either end of a block leaves the inputs as they were. -/
theorem BlockEnds.sameInputs {e : Env} {s t : State} {v : Verdict} (h : BlockEnds e s t v) : SameInputs s t := by
  cases v with
  | ok out next => exact BlockDone.frame h
  | raise cause => exact Aborted.frame h

/-- Either end of a block leaves the effective mode and the downgrade flag as they were. -/
theorem BlockEnds.keeps_mode {e : Env} {s t : State} {v : Verdict} (h : BlockEnds e s t v) :
    t.emode = s.emode ∧ t.dgr = s.dgr := by
  cases v with
  | ok out next => exact ⟨BlockDone.emode h, BlockDone.dgr h⟩
  | raise cause => exact ⟨Aborted.emode h, Aborted.dgr h⟩

/-- Either end of a block changes `OBUF` at most from the old `OLEN` up to the new one. -/
theorem BlockEnds.obuf_outside {e : Env} {s t : State} {v : Verdict} (h : BlockEnds e s t v) {k : Nat}
    (hk : k < s.olen ∨ t.olen ≤ k) : cellRead t.obuf k = cellRead s.obuf k := by
  cases v with
  | ok out next => exact BlockDone.outside h k (BlockDone.olen h ▸ hk)
  | raise cause => rw [Aborted.obuf h]

/-- `TDIR` depends on `EMODE` and `CMD` alone (R33). -/
theorem State.tdir_congr {s t : State} (hm : t.emode = s.emode) (hc : t.cmd = s.cmd) : t.tdir = s.tdir := by
  unfold State.tdir
  rw [hm, hc]

/-! ### The inputs and the output buffer in a sequencer's step (R67, R74, R78) -/

section sequencerStep

variable {e : Env} {mode : Option Mode} {ivp : Bool} {dir : Dir} {s t : State}

/-- No sequencer's step writes an input. -/
theorem sequencerStep_sameInputs (h : sequencerStep e mode ivp dir s = .next t) : SameInputs s t := by
  rcases sequencerStep_cases h with ⟨-, rfl⟩ | ⟨-, -, rfl⟩ | ⟨m, -, -, -, rfl⟩ | ⟨m, -, -, -, -, rfl⟩ |
    ⟨-, -, rfl⟩ | ⟨-, -, -, rfl⟩ | ⟨b, hp, -, -, rfl⟩
  case inr.inr.inr.inr.inr.inr => exact (applyRun_blockEnds e hp _).sameInputs
  all_goals constructor <;> rfl

/-- Only the INIT step writes `EMODE` and `DGR`. -/
theorem sequencerStep_keeps_mode (hi : s.phase ≠ .init) (h : sequencerStep e mode ivp dir s = .next t) :
    t.emode = s.emode ∧ t.dgr = s.dgr := by
  rcases sequencerStep_cases h with ⟨-, rfl⟩ | ⟨hp, -⟩ | ⟨m, hp, -⟩ | ⟨m, hp, -⟩ | ⟨-, -, rfl⟩ | ⟨-, -, -, rfl⟩ |
    ⟨b, hp, -, -, rfl⟩
  · exact ⟨rfl, rfl⟩
  · exact absurd hp hi
  · exact absurd hp hi
  · exact absurd hp hi
  · exact ⟨rfl, rfl⟩
  · exact ⟨rfl, rfl⟩
  · exact (applyRun_blockEnds e hp _).keeps_mode

/-- A sequencer's step changes `OBUF` at most from the old `OLEN` up to the new one: only a processed block writes
it. -/
theorem sequencerStep_obuf_outside (h : sequencerStep e mode ivp dir s = .next t) {k : Nat}
    (hk : k < s.olen ∨ t.olen ≤ k) : cellRead t.obuf k = cellRead s.obuf k := by
  rcases sequencerStep_cases h with ⟨-, rfl⟩ | ⟨-, -, rfl⟩ | ⟨m, -, -, -, rfl⟩ | ⟨m, -, -, -, -, rfl⟩ |
    ⟨-, -, rfl⟩ | ⟨-, -, -, rfl⟩ | ⟨b, hp, -, -, rfl⟩
  case inr.inr.inr.inr.inr.inr => exact (applyRun_blockEnds e hp _).obuf_outside hk
  all_goals rfl

end sequencerStep

/-- Settles O32: `TDIR` stays because `EMODE` and `CMD` do. -/
theorem stepsNeverWriteTheInputs : Obligations.StepsNeverWriteTheInputs := by
  intro i s t h
  rw [exec_eq] at h
  have hin := sequencerStep_sameInputs h
  refine ⟨hin, fun hi => ?_⟩
  obtain ⟨hm, hd⟩ := sequencerStep_keeps_mode hi h
  exact ⟨hm, State.tdir_congr hm hin.cmd, hd⟩

/-- Settles O33: the frame of `OBUF` in a sequencer's step. -/
theorem outputChangesOnlyByAppending : Obligations.OutputChangesOnlyByAppending := by
  intro i s t h k hk
  rw [exec_eq] at h
  exact sequencerStep_obuf_outside h hk

/-! ### The length of an output (R68) -/

/-- An answer of the CFB algorithm is as long as its data block: the keystream reaches that far. -/
theorem cfbBlock_ok_length {e : Env} {chain b out : Block} {f : Block → Block} {next : Option Block}
    (h : (cfbBlock e chain b f).verdict = .ok out next) : out.length = b.length := by
  simp only [cfbBlock] at h
  split at h
  · cases h
  · split at h
    · cases h
    · split at h
      · cases h
      · rename_i hk
        cases h
        exact xorPrefix_length _ _ _ le_rfl (Nat.le_of_not_lt hk)

/-- The CFB engine keeps the length of a block, in either direction. -/
theorem cfbEngine_ok_length {e : Env} {dir : Dir} {chain b out : Block} {next : Option Block}
    (h : (engineFor .cfb dir e chain b).verdict = .ok out next) : out.length = b.length := by
  cases dir with
  | encrypt => exact cfbBlock_ok_length (f := fun c => c) h
  | decrypt => exact cfbBlock_ok_length (f := fun _ => b) h

/-- A fold of the CFB engine that ends with a result adds as many bytes as its blocks hold. -/
theorem processFrom_cfb_length {e : Env} {dir : Dir} {chain acc out : Block} {idx : Nat} {blocks : List Block}
    (h : processFrom e (engineFor .cfb dir) chain idx acc blocks = .present out) :
    out.length = acc.length + (blocks.map List.length).sum := by
  induction blocks generalizing chain acc idx with
  | nil =>
    cases h
    simp
  | cons b rest ih =>
    simp only [processFrom] at h
    split at h
    · cases h
    · split at h
      · cases h
      · rename_i o next hv
        rw [ih h, List.length_append, cfbEngine_ok_length hv, List.map_cons, List.sum_cons, Nat.add_assoc]

/-- The two commands that keep the CFB mode run the fold of the CFB engine. -/
theorem process_cfb (e : Env) (iv : Block) (blocks : List Block) :
    process e 0x0C#8 iv blocks = processFrom e (engineFor .cfb .encrypt) iv 0 [] blocks ∧
      process e 0x0D#8 iv blocks = processFrom e (engineFor .cfb .decrypt) iv 0 [] blocks := ⟨rfl, rfl⟩

/-- Settles O45: the fold begins with no output. -/
theorem cfbKeepsTheLength : Obligations.CfbKeepsTheLength := by
  intro e code iv blocks out hcode h
  obtain ⟨henc, hdec⟩ := process_cfb e iv blocks
  rcases hcode with rfl | rfl
  · exact (processFrom_cfb_length (henc ▸ h)).trans (Nat.zero_add _)
  · exact (processFrom_cfb_length (hdec ▸ h)).trans (Nat.zero_add _)

end Sys2Proof.Machine
end

section
/-! SUPPORT. The encoding family (30_encoding): the rows of the table as bits of the command byte, decoding against
encoding, the fields of a command, the words `DISPATCH` and `ERR`, and the commands that run as the Plain ones. -/

namespace Sys2Proof

/-! ### The rows of the table as bits of the byte (R101) -/

section rows

variable (code : BitVec 8)

theorem inRow_rsv7 : inRow 0x80#8 0x80#8 code = true ↔ code.getLsbD 7 = true := by
  revert code
  decide

theorem inRow_rsv6 : inRow 0xC0#8 0x40#8 code = true ↔ code.getLsbD 7 = false ∧ code.getLsbD 6 = true := by
  revert code
  decide

theorem inRow_rsv5 : inRow 0xE0#8 0x20#8 code = true ↔
    code.getLsbD 7 = false ∧ code.getLsbD 6 = false ∧ code.getLsbD 5 = true := by
  revert code
  decide

theorem inRow_rsv4 : inRow 0xF0#8 0x10#8 code = true ↔
    code.getLsbD 7 = false ∧ code.getLsbD 6 = false ∧ code.getLsbD 5 = false ∧ code.getLsbD 4 = true := by
  revert code
  decide

theorem inRow_mode : inRow 0xF6#8 0x06#8 code = true ↔
    code.getLsbD 7 = false ∧ code.getLsbD 6 = false ∧ code.getLsbD 5 = false ∧ code.getLsbD 4 = false ∧
      modeOf code = none := by
  revert code
  decide

end rows

/-! ### Decoding against encoding (R100 to R102) -/

/-- A well-formed command is the one its byte decodes to. In an illegal row the bits that `WellFormed` asks for are the
ones the decoder tests. -/
theorem decodeCmd_encode {i : Instr} (h : WellFormed i = true) : decodeCmd (encode i) = i := by
  cases i with
  | plainEnc ivp => cases ivp <;> rfl
  | plainDec ivp => cases ivp <;> rfl
  | illegalMode code =>
    obtain ⟨h7, h6, h5, h4, hm⟩ := (inRow_mode code).1 h
    simp only [encode, decodeCmd, h7, h6, h5, h4, hm, Bool.false_eq_true, if_false]
  | illegalRsv7 code => exact if_pos ((inRow_rsv7 code).1 h)
  | illegalRsv6 code =>
    obtain ⟨h7, h6⟩ := (inRow_rsv6 code).1 h
    simp only [encode, decodeCmd, h7, h6, Bool.false_eq_true, if_false, if_true]
  | illegalRsv5 code =>
    obtain ⟨h7, h6, h5⟩ := (inRow_rsv5 code).1 h
    simp only [encode, decodeCmd, h7, h6, h5, Bool.false_eq_true, if_false, if_true]
  | illegalRsv4 code =>
    obtain ⟨h7, h6, h5, h4⟩ := (inRow_rsv4 code).1 h
    simp only [encode, decodeCmd, h7, h6, h5, h4, Bool.false_eq_true, if_false, if_true]
  | _ => rfl

/-- The legal rows carry nothing that could be wrong. -/
theorem wellFormed_legalInstr (ivp : Bool) (mode : Mode) (dir : Dir) :
    WellFormed (legalInstr ivp mode dir) = true := by
  cases mode <;> cases dir <;> cases ivp <;> rfl

/-- What the decoder gives is well-formed: in each branch the bits tested so far put the byte in that branch's row. -/
theorem wellFormed_decodeCmd (code : BitVec 8) : WellFormed (decodeCmd code) = true := by
  unfold decodeCmd
  split_ifs with h7 h6 h5 h4
  · exact (inRow_rsv7 code).2 h7
  · exact (inRow_rsv6 code).2 ⟨eq_false_of_ne_true h7, h6⟩
  · exact (inRow_rsv5 code).2 ⟨eq_false_of_ne_true h7, eq_false_of_ne_true h6, h5⟩
  · exact (inRow_rsv4 code).2 ⟨eq_false_of_ne_true h7, eq_false_of_ne_true h6, eq_false_of_ne_true h5, h4⟩
  · split
    · next hm =>
      exact (inRow_mode code).2 ⟨eq_false_of_ne_true h7, eq_false_of_ne_true h6, eq_false_of_ne_true h5,
        eq_false_of_ne_true h4, hm⟩
    · exact wellFormed_legalInstr ..

/-- Decoding loses no bit of the byte. -/
@[simp] theorem encode_decodeCmd (code : BitVec 8) : encode (decodeCmd code) = code := by
  revert code
  decide

/-- Settles O1: a command is one byte, which decodes to it. -/
theorem decodeInvertsEncode : Obligations.DecodeInvertsEncode := by
  intro i rest h
  simp [encodeBytes, decodeBytes, decodeCmd_encode h]

/-- Settles O2: the command a byte decodes to is one, and any other with that byte is decoded from it too. -/
theorem everyByteIsOneCommand : Obligations.EveryByteIsOneCommand := by
  refine fun code => ⟨decodeCmd code, ⟨wellFormed_decodeCmd code, encode_decodeCmd code⟩, fun i hi => ?_⟩
  obtain ⟨hw, rfl⟩ := hi
  exact (decodeCmd_encode hw).symm

/-- Settles O4: the decoder evaluated on the words of the table. -/
theorem tableWordsDecode : Obligations.TableWordsDecode := ⟨by decide, by decide⟩

end Sys2Proof

namespace Sys2Proof.Machine

/-! ### The fields of a command byte (R95) -/

/-- R95 (1): the commands with a reserved bit set or the reserved mode are the illegal ones. -/
theorem instrMode_decodeCmd_eq_none (code : BitVec 8) :
    instrMode (decodeCmd code) = none ↔ (code.extractLsb' 4 4 ≠ 0#4 ∨ code.extractLsb' 1 2 = 0b11#2) := by
  revert code
  decide

/-- The requested mode of a legal command is bits 2:1 (R92). -/
theorem modeCode_instrMode_decodeCmd (code : BitVec 8) :
    ∀ m ∈ instrMode (decodeCmd code), modeCode m = code.extractLsb' 1 2 := by
  revert code
  decide

theorem dirOf_eq_decrypt (code : BitVec 8) : dirOf code = .decrypt ↔ code.getLsbD 0 = true := by
  simp [dirOf]

theorem effectiveMode_eq_ite (m : Mode) (ivp : Bool) : effectiveMode m ivp = if ivp = false then .plain else m := by
  cases ivp <;> rfl

theorem downgraded_eq_true (m : Mode) (ivp : Bool) : downgraded m ivp = true ↔ ivp = false ∧ m ≠ .plain := by
  simp [downgraded]

/-- The inverse transform is for decryption in a mode other than CFB (R33). -/
theorem tdirOf_eq_inv (m : Mode) (dir : Dir) : tdirOf m dir = .inv ↔ dir = .decrypt ∧ m ≠ .cfb := by
  cases m <;> cases dir <;> simp [tdirOf]

/-- Settles O3: each field of the decoded command is read off the byte's bits. -/
theorem commandFieldsDecode : Obligations.CommandFieldsDecode := by
  refine fun code => ⟨instrMode_decodeCmd_eq_none code, fun m hm => ⟨modeCode_instrMode_decodeCmd code m hm, ?_, ?_,
    effectiveMode_eq_ite .., downgraded_eq_true .., ?_⟩⟩
  · exact instrIvp_decodeCmd code
  · rw [instrDir_decodeCmd, dirOf_eq_decrypt]
  · rw [tdirOf_eq_inv, instrDir_decodeCmd, dirOf_eq_decrypt]

/-! ### The words `DISPATCH` and `ERR` (R98) -/

theorem dispatch_emode (s : State) : s.dispatch.extractLsb' 0 2 = modeCode s.emode := by
  unfold State.dispatch
  cases s.tdir <;> cases s.emode <;> rfl

theorem dispatch_tdir (s : State) : s.dispatch.getLsbD 2 = true ↔ s.tdir = .inv := by
  unfold State.dispatch
  cases s.tdir <;> cases s.emode <;> decide

theorem dispatch_high (s : State) : s.dispatch.extractLsb' 3 5 = 0#5 := by
  unfold State.dispatch
  cases s.tdir <;> cases s.emode <;> rfl

/-- Settles O10: the three fields of `DISPATCH`, and `ERR` cause by cause. -/
theorem dispatchAndErrWords : Obligations.DispatchAndErrWords := by
  refine fun s => ⟨?_, dispatch_tdir s, dispatch_high s, ?_⟩
  · rw [dispatch_emode]
    cases s.emode <;> rfl
  · unfold State.errWord
    cases s.err with
    | none => rfl
    | some cause => cases cause <;> rfl

/-! ### Commands that run as the Plain command of their direction (R104) -/

/-- The same state with another code in `CMD` and another `DGR`: what a host can tell a command that runs as Plain from
the Plain command by. -/
def State.relabel (c : BitVec 8) (d : Bool) (s : State) : State := { s with cmd := c, dgr := d }

/-- The outcome with its next state, if it has one, changed by `f`; a fault or a refusal stays. -/
def mapNext (f : State → State) : Out → Out
  | .next s => .next (f s)
  | .fault r => .fault r
  | .refused r => .refused r

section relabel

variable (e : Env) (s : State) (c : BitVec 8) (d : Bool)

@[simp] theorem State.relabel_cmd : (s.relabel c d).cmd = c := rfl
@[simp] theorem State.relabel_phase : (s.relabel c d).phase = s.phase := rfl

/-- A verdict does to a relabelled state what it does to the state. -/
theorem applyRun_relabel (r : EngineRun) : applyRun e r (s.relabel c d) = (applyRun e r s).relabel c d := by
  unfold applyRun
  cases r.verdict with
  | raise cause => rfl
  | ok out chain => cases chain <;> rfl

/-- A per-block step neither reads nor writes `CMD` and `DGR`. -/
theorem blockStep_relabel (engine : Env → Block → Block → EngineRun) :
    blockStep e engine (s.relabel c d) = mapNext (State.relabel c d) (blockStep e engine s) := by
  have hread : (s.relabel c d).blockRead e (s.relabel c d).bidx = s.blockRead e s.bidx := rfl
  unfold blockStep
  rw [hread]
  cases s.blockRead e s.bidx with
  | unwritten => rfl
  | reserved => rfl
  | block b => exact congrArg _ (applyRun_relabel ..)

variable {s}

/-- After the INIT step the sequencer asks nothing of the command but `DIR` (R127), and never for `DGR`. -/
theorem sequencerStep_relabel (hp : s.phase ≠ .init) (mode mode' : Option Mode) (ivp ivp' : Bool) (dir : Dir) :
    sequencerStep e mode ivp dir (s.relabel c d) =
      mapNext (State.relabel c d) (sequencerStep e mode' ivp' dir s) := by
  unfold sequencerStep
  rw [State.relabel_phase]
  cases h : s.phase with
  | idle => rfl
  | init => exact absurd h hp
  | done => rfl
  | proc =>
    change (if s.bidx = s.nblk then _ else if s.bidx < s.nblk then _ else _) = _
    split_ifs
    · rfl
    · exact blockStep_relabel ..
    · rfl

variable {e c}

/-- With nothing pending the sequencer moves, under the latched command. -/
theorem stepIn_of_host_nil (hh : s.host = []) : stepIn e s = execIn e (decodeCmd s.cmd) s := by
  unfold stepIn stepBy
  rw [hh]

/-- No step of the sequencer leads to INIT: that is START's alone (R30). -/
theorem execIn_phase_ne_init {i : Instr} {t : State} (hp : s.phase ≠ .init) (h : execIn e i s = .next t) :
    t.phase ≠ .init := by
  obtain ht | ⟨hi, -⟩ | ⟨-, ht⟩ := execIn_phase h
  · rwa [ht]
  · exact absurd hi hp
  · simp [ht]

/-- Once the INIT step is past, a run goes on alike under any code of the same direction and any `DGR`. -/
theorem runIn_relabel (k : Nat) (hh : s.host = []) (hp : s.phase ≠ .init) (hc : dirOf c = dirOf s.cmd) :
    runIn e k (s.relabel c d) = mapNext (State.relabel c d) (runIn e k s) := by
  induction k generalizing s with
  | zero => rfl
  | succ k ih =>
    have hstep : stepIn e (s.relabel c d) = mapNext (State.relabel c d) (stepIn e s) := by
      rw [stepIn_of_host_nil hh, stepIn_of_host_nil (s := s.relabel c d) hh, execIn_decodeCmd, execIn_decodeCmd,
        State.relabel_cmd, hc]
      exact sequencerStep_relabel e c d hp ..
    simp only [runIn, hstep]
    cases hs : stepIn e s with
    | next t =>
      rw [stepIn_of_host_nil hh] at hs
      have hin := sequencerStep_sameInputs hs
      exact ih (hin.host.trans hh) (execIn_phase_ne_init hp hs) (hin.cmd ▸ hc)
    | fault r => rfl
    | refused r => rfl

end relabel

/-- The code is that of a legal command with effective mode Plain and this downgrade flag. -/
def RunsPlain (code : BitVec 8) (dgr : Bool) : Prop :=
  ∃ m, instrMode (decodeCmd code) = some m ∧ effectiveMode m (ivpOf code) = .plain ∧ downgraded m (ivpOf code) = dgr

/-- The INIT step of a command with effective mode Plain (R153), right after its START. -/
theorem stepIn_start_plain {e : Env} {s : State} {code : BitVec 8} {dgr : Bool} (hh : s.host = [])
    (hc : RunsPlain code dgr) :
    stepIn e (s.start code) = .next (((s.start 0x00#8).select .plain false).relabel code dgr) := by
  obtain ⟨m, hm, he, hd⟩ := hc
  have hsel : (s.start code).select m (ivpOf code) = ((s.start 0x00#8).select .plain false).relabel code dgr := by
    unfold State.select
    rw [he, hd]
    rfl
  rw [stepIn_of_host_nil (s := s.start code) hh, State.start_cmd, execIn_init_legal (s.start_phase code) hm,
    instrIvp_decodeCmd, ← hsel]
  simp [initLegal, he]

/-- Two codes of one direction that run as Plain make the same run, but for `CMD` and, from the INIT step on, `DGR`. -/
theorem runIn_start_plain {e : Env} {s : State} {code base : BitVec 8} {dgr : Bool} (hh : s.host = [])
    (hc : RunsPlain code dgr) (hp : RunsPlain base false) (hdir : dirOf code = dirOf base) (k : Nat) :
    runIn e k (s.start code) = mapNext (State.relabel code (decide (k ≠ 0) && dgr)) (runIn e k (s.start base)) := by
  cases k with
  | zero => rfl
  | succ k =>
    simp only [runIn, stepIn_start_plain hh hc, stepIn_start_plain hh hp]
    exact runIn_relabel (s := ((s.start 0x00#8).select .plain false).relabel base false) dgr k hh (by simp) hdir

/-- Settles O22: each pair of codes runs as Plain in one direction. -/
theorem downgradedCommandsRunAsPlain : Obligations.DowngradedCommandsRunAsPlain := by
  intro s k hh p hmem
  have hp : RunsPlain p.1 p.2.2 ∧ RunsPlain p.2.1 false ∧ dirOf p.1 = dirOf p.2.1 := by
    simp only [List.mem_cons, List.not_mem_nil, or_false] at hmem
    rcases hmem with rfl | rfl | rfl | rfl | rfl | rfl <;> exact ⟨⟨_, rfl, rfl, rfl⟩, ⟨_, rfl, rfl, rfl⟩, rfl⟩
  obtain ⟨hc, hplain, hdir⟩ := hp
  have hrun := runIn_start_plain (e := Config.env) hh hc hplain hdir k
  simp only [run_eq, hrun]
  cases runIn Config.env k (s.start p.2.1) <;> rfl

end Sys2Proof.Machine
end

section
/-! SUPPORT. The sequencer family (40_datapath_and_sequencer): START, which command a step runs, the steps in IDLE, DONE
and at the end of a call, and the transform invocations a step makes. -/

namespace Sys2Proof.Machine

/-! ### START (R126) -/

@[simp] theorem State.busy_eq_true (s : State) : s.busy = true ↔ s.phase = .init ∨ s.phase = .proc := by
  unfold State.busy
  cases s.phase <;> simp

theorem hostWrite_busy {e : Env} {s : State} {w : HostWrite} (h : writeRefusal e w = none)
    (hp : s.phase = .init ∨ s.phase = .proc) : hostWrite e w s = .next s := by
  simp [hostWrite, h, s.busy_eq_true.2 hp]

/-- A pending write that can be made is ignored while the core is busy (R38). -/
theorem stepIn_write_busy {e : Env} {s : State} {w : HostWrite} {rest : List HostEvent}
    (h : s.host = .write w :: rest) (hr : writeRefusal e w = none) (hp : s.phase = .init ∨ s.phase = .proc) :
    stepIn e s = .next { s with host := rest } :=
  (stepIn_write h).trans (hostWrite_busy hr hp)

/-- `CMD` holds every byte. -/
theorem writeRefusal_cmd (e : Env) (v : BitVec 8) : writeRefusal e (.reg .cmd v.toNat) = none :=
  if_pos v.isLt

/-- A write of a byte to `CMD` is START. -/
theorem applyWrite_cmd (s : State) (v : BitVec 8) : s.applyWrite (.reg .cmd v.toNat) = s.start v := by
  rw [State.applyWrite, BitVec.ofNat_toNat, BitVec.setWidth_eq]

/-- Settles O11: the write is never refused, is START where it is accepted, and is ignored while busy. -/
theorem startBeginsACall : Obligations.StartBeginsACall := by
  intro s v rest h
  have hr := writeRefusal_cmd Config.env v
  refine ⟨fun hp => ?_, fun hp => ?_⟩
  · rw [step_eq, stepIn_write_accepted h hr hp, applyWrite_cmd]
    rfl
  · rw [step_eq, stepIn_write_busy h hr hp]

/-! ### Which command a step runs (R103, R127) -/

@[simp] theorem State.isDone_eq_true (s : State) : s.isDone = true ↔ s.phase = .done := by
  unfold State.isDone
  cases s.phase <;> simp

section pending

variable {e : Env} {s : State} {rest : List HostEvent}

/-- A pending `core` event is used up by the step of the latched command. -/
theorem stepIn_core (h : s.host = .core :: rest) :
    stepIn e s = execIn e (decodeCmd s.cmd) { s with host := rest } := by
  unfold stepIn stepBy
  rw [h]

/-- Under a pending `wait` the latched command steps until DONE. -/
theorem stepIn_wait (h : s.host = .wait :: rest) (hp : s.phase ≠ .done) :
    stepIn e s = execIn e (decodeCmd s.cmd) s := by
  unfold stepIn stepBy
  rw [h]
  exact if_neg (mt s.isDone_eq_true.1 hp)

/-- In DONE a pending `wait` is over. -/
theorem stepIn_wait_done (h : s.host = .wait :: rest) (hp : s.phase = .done) :
    stepIn e s = .next { s with host := rest } := by
  unfold stepIn stepBy
  rw [h]
  exact if_pos (s.isDone_eq_true.2 hp)

end pending

/-- One byte decodes to the one command of that byte. -/
theorem decodeBytes_singleton {c : Byte} {i : Instr} (h : decodeBytes [c] = .ok (i, [])) : decodeCmd c = i := by
  cases h
  rfl

/-- The table bits of a byte place the command of that byte. -/
theorem withFetchWord_toNat (s : State) (c : BitVec 8) : s.withFetchWord 8 c.toNat = s.placeCommand c := by
  rw [State.withFetchWord, Nat.mod_eq_of_lt c.isLt, BitVec.ofNat_toNat, BitVec.setWidth_eq]

/-- Settles O17: with nothing pending, under `core` and under `wait`; a placed command is in INIT under a `wait`. -/
theorem stepRunsTheLatchedCommand : Obligations.StepRunsTheLatchedCommand := by
  intro s i h
  obtain rfl := decodeBytes_singleton h
  simp only [step_eq, exec_eq]
  refine ⟨wellFormed_decodeCmd _, stepIn_of_host_nil, fun rest => stepIn_core, fun rest => stepIn_wait,
    fun rest => stepIn_wait_done, ?_⟩
  rw [withFetchWord_toNat]
  exact stepIn_wait (s := s.placeCommand s.cmd) rfl (by simp [State.placeCommand])

/-! ### The steps in IDLE and DONE, and the finish step (R127, R129, R130) -/

/-- In IDLE and DONE no step is enabled (log 7). -/
theorem execIn_waits {e : Env} {i : Instr} {s : State} (hp : s.phase = .idle ∨ s.phase = .done) :
    execIn e i s = .next s := by
  unfold execIn sequencerStep
  rcases hp with hp | hp <;> rw [hp]

/-- Settles O18: the sequencer asks for the phase alone, not for the command. -/
theorem coreWaitsInIdleAndDone : Obligations.CoreWaitsInIdleAndDone := by
  intro i s hp
  rw [exec_eq, execIn_waits hp]

/-- In PROC, after the last block, every command's step is the finish step. -/
theorem execIn_proc_finish {e : Env} {s : State} (i : Instr) (hp : s.phase = .proc) (hb : s.bidx = s.nblk) :
    execIn e i s = .next (s.finish e) := by
  simp [execIn, sequencerStep, hp, hb]

/-- The result after the finish step is the output stream. -/
theorem finish_result (e : Env) (s : State) : (s.finish e).result e = .present (s.output e) :=
  State.result_eq_present.2 ⟨rfl, rfl, rfl⟩

/-- Settles O29: the finish step writes what R129 says and makes the output stream the result. -/
theorem finishStepCompletesTheCall : Obligations.FinishStepCompletesTheCall := by
  intro i s hp hb
  exact ⟨s.finish Config.env, by rw [exec_eq, execIn_proc_finish i hp hb], rfl, finish_result Config.env s⟩

/-! ### A call on no blocks (R129) -/

theorem State.ivRead_eq_some {s : State} (h : s.ivUnwritten = []) : s.ivRead = some s.iv := by
  unfold State.ivRead
  rw [h]

/-- The INIT step of a legal command that finds written what it reads: the selection, and the load of the chaining
state where the effective mode chains. -/
theorem initLegal_next {e : Env} {mode : Mode} {ivp : Bool} {s : State}
    (h : effectiveMode mode ivp ≠ .plain → s.ivUnwritten = []) :
    initLegal e mode ivp s = .next (s.select mode ivp) ∨
      initLegal e mode ivp s = .next ((s.select mode ivp).loadChain e s.iv) := by
  unfold initLegal
  cases hm : effectiveMode mode ivp with
  | plain => exact .inl rfl
  | cbc =>
    rw [State.ivRead_eq_some (h (by simp [hm]))]
    exact .inr rfl
  | cfb =>
    rw [State.ivRead_eq_some (h (by simp [hm]))]
    exact .inr rfl

/-- A legal command reads `IV` where its effective mode chains. -/
theorem readsIv_eq_true {code : BitVec 8} {m : Mode} (hm : instrMode (decodeCmd code) = some m) :
    readsIv code = true ↔ effectiveMode m (ivpOf code) ≠ .plain := by
  simp [readsIv, hm]

theorem output_eq_nil {e : Env} {s : State} (h : s.olen = 0) : s.output e = [] := by
  simp [State.output, h]

/-- A step to PROC with no block left and nothing pending, then the finish step. -/
theorem runIn_step_finish {e : Env} {s t : State} (hs : stepIn e s = .next t) (hh : t.host = []) (hp : t.phase = .proc)
    (hb : t.bidx = t.nblk) : runIn e 2 s = .next (t.finish e) := by
  have hf : stepIn e t = .next (t.finish e) := (stepIn_of_host_nil hh).trans (execIn_proc_finish _ hp hb)
  simp only [runIn, hs, hf]

/-- Settles O42: the INIT step leaves no block and no output, so the next step is the finish step. -/
theorem emptyInputIsASuccess : Obligations.EmptyInputIsASuccess := by
  intro s hh hp hn hf hx hlegal hiv
  obtain ⟨m, hm⟩ := Option.isSome_iff_exists.1 hlegal
  have hinit : stepIn Config.env s = initLegal Config.env m (ivpOf s.cmd) s := by
    rw [stepIn_of_host_nil hh, execIn_init_legal hp hm, instrIvp_decodeCmd]
  have hres : ∀ t : State, t.olen = 0 → (t.finish Config.env).result Config.env = .present [] := fun t ht => by
    rw [finish_result, output_eq_nil ht]
  have hread : effectiveMode m (ivpOf s.cmd) ≠ .plain → s.ivUnwritten = [] := hiv ∘ (readsIv_eq_true hm).2
  rcases initLegal_next (e := Config.env) hread with ht | ht <;>
    exact ⟨_, (run_eq 2 s).trans (runIn_step_finish (hinit.trans ht) hh rfl hn.symm), hres _ rfl, rfl, rfl, hf, hx⟩

/-! ### The transform invocations of a step (R120 to R122) -/

/-- What an engine records of an invocation is the answer of the transform unit. -/
theorem engine_answer (e : Env) (mode : Mode) (dir : Dir) (chain b : Block) :
    ∀ x ∈ (engineFor mode dir e chain b).events, x.answer = e.xform x.tdir x.input := by
  cases mode <;> cases dir
  case cbc.encrypt =>
    simp only [engineFor, cbcEncBlock]
    split <;> simp
  all_goals exact fun x hx => by cases List.mem_singleton.1 hx; rfl

@[simp] theorem State.chainTo_xlog (s : State) (c : Option Block) : (s.chainTo c).xlog = s.xlog := by
  cases c <;> rfl

/-- Whatever an engine's verdict, the invocations it made are recorded. -/
theorem applyRun_xlog (e : Env) (r : EngineRun) (s : State) : (applyRun e r s).xlog = s.xlog ++ r.events := by
  obtain ⟨c, -, ha⟩ | ⟨out, next, -, ha⟩ := applyRun_cases e r s
  · simp [ha]
  · simp [ha]

/-- A sequencer's step adds to the event sequence the invocations of the engine on a block in PROC, or none. -/
theorem sequencerStep_xlog {e : Env} {mode : Option Mode} {ivp : Bool} {dir : Dir} {s t : State}
    (h : sequencerStep e mode ivp dir s = .next t) :
    t.xlog = s.xlog ∨
      s.phase = .proc ∧ ∃ b, t.xlog = s.xlog ++ (engineFor s.emode dir e s.chainBlock b).events := by
  rcases sequencerStep_cases h with ⟨-, rfl⟩ | ⟨-, -, rfl⟩ | ⟨m, -, -, -, rfl⟩ | ⟨m, -, -, -, -, rfl⟩ |
    ⟨-, -, rfl⟩ | ⟨-, -, -, rfl⟩ | ⟨b, hp, -, -, rfl⟩
  case inr.inr.inr.inr.inr.inr => exact .inr ⟨hp, b, applyRun_xlog ..⟩
  all_goals exact .inl rfl

/-- Settles O35: each engine's invocations have the direction of its mode and command. -/
theorem transformDirectionIsTdir : Obligations.TransformDirectionIsTdir := by
  refine ⟨fun m d => ?_, fun i s t h => ?_⟩
  · rw [tdirOf_eq_inv]
    cases m <;> simp
  · rw [exec_eq] at h
    obtain hx | ⟨hp, b, hx⟩ := sequencerStep_xlog h
    · exact ⟨[], by simp [hx], by simp⟩
    · exact ⟨_, hx, fun x hmem => ⟨hp, engine_tdir _ _ _ _ _ x hmem, engine_answer _ _ _ _ _ x hmem⟩⟩

end Sys2Proof.Machine
end

section
/-! SUPPORT. The mode selector family (41_mode_selector): the INIT step of the illegal commands and of the legal ones. -/

namespace Sys2Proof.Machine

/-! ### The INIT step of an illegal command (R152) -/

/-- In INIT an illegal command's step is `initIllegal`, whatever its bits. -/
theorem execIn_init_illegal {e : Env} {i : Instr} {s : State} (hp : s.phase = .init) (hm : instrMode i = none) :
    execIn e i s = initIllegal e s := by
  simp [execIn, sequencerStep, hp, hm, initStep]

/-- The abort sequence alone, with no transform invocation recorded before it. -/
theorem abort_aborted (e : Env) (s : State) (cause : Cause) : Aborted e s (s.abort e cause) cause := by
  simpa [State.logEvents] using logEvents_abort_aborted e s [] cause

/-- An aborted call has no result. -/
theorem abort_result (e : Env) (s : State) (cause : Cause) : (s.abort e cause).result e = .absent := rfl

/-- The commands of the five illegal rows have no mode. -/
theorem illegal_commands (code : BitVec 8) :
    ∀ i ∈ [Instr.illegalMode code, .illegalRsv7 code, .illegalRsv6 code, .illegalRsv5 code, .illegalRsv4 code],
      instrMode i = none := by
  simp [instrMode]

/-- Settles O19: the step is the abort sequence after R152's three writes, which touch nothing else. -/
theorem illegalCommandAborts : Obligations.IllegalCommandAborts := by
  intro code s hp i hi
  have hstep : exec i s = initIllegal Config.env s := by
    rw [exec_eq, execIn_init_illegal hp (illegal_commands code i hi)]
  exact ⟨_, hstep, abort_aborted .., rfl, abort_result ..⟩

/-! ### The INIT step of a legal command (R153) -/

/-- The command is legal, and the selector gives it this effective mode and this downgrade flag (R95 (2), (3)). -/
def Selects (i : Instr) (mode : Mode) (dgr : Bool) : Prop :=
  ∃ m, instrMode i = some m ∧ effectiveMode m (instrIvp i) = mode ∧ downgraded m (instrIvp i) = dgr

/-- A command whose effective mode is Plain reads no `IV` and leaves the chaining state. -/
theorem exec_init_plain {i : Instr} {dgr : Bool} {s : State} (hp : s.phase = .init) (hi : Selects i .plain dgr) :
    exec i s = .next { s with emode := .plain, dgr := dgr, bidx := 0, olen := 0, phase := .proc } := by
  obtain ⟨m, hm, he, rfl⟩ := hi
  rw [exec_eq, execIn_init_legal hp hm]
  simp [initLegal, State.select, he]

/-- A command whose effective mode chains loads the chaining state from an `IV` that is written (R70). -/
theorem exec_init_chaining {i : Instr} {mode : Mode} {dgr : Bool} {s : State} (hp : s.phase = .init)
    (hi : Selects i mode dgr) (hc : mode ≠ .plain) (hiv : s.ivUnwritten = []) :
    exec i s = .next { s with
      emode := mode, dgr := dgr, chain := s.iv, clen := Config.env.bs, bidx := 0, olen := 0, phase := .proc } := by
  obtain ⟨m, hm, rfl, rfl⟩ := hi
  rw [exec_eq, execIn_init_legal hp hm]
  unfold initLegal
  rw [State.ivRead_eq_some hiv]
  split
  · next he => exact absurd he hc
  · rfl
  · rfl

/-- R155: a requested Plain mode is Plain with or without an IV, and is no downgrade. -/
theorem selects_plain {i : Instr} (hm : instrMode i = some .plain) : Selects i .plain false :=
  ⟨.plain, hm, by simp [effectiveMode], by simp [downgraded]⟩

/-- R154: the four commands without an IV are downgraded to Plain. -/
theorem selects_noIv : ∀ i ∈ [Instr.cbcEncNoIv, .cbcDecNoIv, .cfbEncNoIv, .cfbDecNoIv], Selects i .plain true := by
  simp only [List.forall_mem_cons]
  exact ⟨⟨_, rfl, rfl, rfl⟩, ⟨_, rfl, rfl, rfl⟩, ⟨_, rfl, rfl, rfl⟩, ⟨_, rfl, rfl, rfl⟩, List.forall_mem_nil _⟩

/-- `CBC.ENC` and `CBC.DEC` keep their mode. -/
theorem selects_cbc : ∀ i ∈ [Instr.cbcEnc, .cbcDec], Selects i .cbc false := by
  simp only [List.forall_mem_cons]
  exact ⟨⟨_, rfl, rfl, rfl⟩, ⟨_, rfl, rfl, rfl⟩, List.forall_mem_nil _⟩

/-- `CFB.ENC` and `CFB.DEC` keep their mode. -/
theorem selects_cfb : ∀ i ∈ [Instr.cfbEnc, .cfbDec], Selects i .cfb false := by
  simp only [List.forall_mem_cons]
  exact ⟨⟨_, rfl, rfl, rfl⟩, ⟨_, rfl, rfl, rfl⟩, List.forall_mem_nil _⟩

/-- Settles O20: what each command selects, and the INIT step of that selection. -/
theorem initOfALegalCommand : Obligations.InitOfALegalCommand := by
  refine fun s hp => ⟨fun i hi => ?_, fun i hi => exec_init_plain hp (selects_noIv i hi),
    fun hiv i hi => exec_init_chaining hp (selects_cbc i hi) (by decide) hiv,
    fun hiv i hi => exec_init_chaining hp (selects_cfb i hi) (by decide) hiv⟩
  obtain ⟨ivp, rfl | rfl⟩ := hi
  · exact exec_init_plain hp (selects_plain rfl)
  · exact exec_init_plain hp (selects_plain rfl)

end Sys2Proof.Machine
end

section
/-! SUPPORT. The Plain engine family (42_plain_engine): the per-block step of any command, and the Plain engine's block
in both directions. -/

namespace Sys2Proof.Machine

/-! ### The per-block step of any command (R64, R65, R128) -/

section perBlockStep

variable {s : State} (hp : s.phase = .proc) (hb : s.bidx < s.nblk)

include hp hb

/-- A reserved length aborts the call in every mode, before any transform invocation (R65). -/
theorem exec_reserved_aborts (i : Instr) (hr : s.blockRead Config.env s.bidx = .reserved) :
    ∃ t, exec i s = .next t ∧ Aborted Config.env s t .lengthMismatch ∧ t.xlog = s.xlog := by
  have hstep : exec i s = .next (s.abort Config.env .lengthMismatch) := by
    rw [exec_eq, execIn_proc_block i hp hb]
    simp [blockStep, hr]
  exact ⟨_, hstep, abort_aborted .., rfl⟩

/-- On a block that can be read, the step records the invocations of the selected engine and ends as its verdict says.
-/
theorem exec_block_ends {i : Instr} {mode : Mode} {dir : Dir} {b : Block} (hm : s.emode = mode)
    (hd : instrDir i = dir) (hr : s.blockRead Config.env s.bidx = .block b) :
    ∃ t, exec i s = .next t ∧
      t.xlog = s.xlog ++ (engineFor mode dir Config.env s.chainBlock b).events ∧
      BlockEnds Config.env s t (engineFor mode dir Config.env s.chainBlock b).verdict := by
  have hstep : exec i s = .next (applyRun Config.env (engineFor mode dir Config.env s.chainBlock b) s) := by
    rw [exec_eq, execIn_proc_block i hp hb, hm, hd]
    simp [blockStep, hr]
  exact ⟨_, hstep, applyRun_xlog .., applyRun_blockEnds _ hp _⟩

end perBlockStep

/-! ### One block of the Plain engine (R171, R172) -/

/-- The commands that run the Plain engine in the direction Encrypt. -/
theorem plainEnc_commands (ivp : Bool) :
    ∀ i ∈ [Instr.plainEnc ivp, .cbcEncNoIv, .cfbEncNoIv], instrDir i = .encrypt := by
  simp only [List.forall_mem_cons]
  exact ⟨by cases ivp <;> rfl, rfl, rfl, List.forall_mem_nil _⟩

/-- The commands that run the Plain engine in the direction Decrypt. -/
theorem plainDec_commands (ivp : Bool) :
    ∀ i ∈ [Instr.plainDec ivp, .cbcDecNoIv, .cfbDecNoIv], instrDir i = .decrypt := by
  simp only [List.forall_mem_cons]
  exact ⟨by cases ivp <;> rfl, rfl, rfl, List.forall_mem_nil _⟩

/-- Settles O23: the per-block step with the Plain engine, whose run in the direction Encrypt is one forward invocation
on the block and the verdict of R171. -/
theorem plainEncProcessesABlock : Obligations.PlainEncProcessesABlock :=
  fun ivp _ hp hm hb i hi =>
    ⟨exec_reserved_aborts hp hb i, fun _ hr => exec_block_ends hp hb hm (plainEnc_commands ivp i hi) hr⟩

/-- Settles O24: as O23; in the direction Decrypt the one invocation is inverse (R172). -/
theorem plainDecProcessesABlock : Obligations.PlainDecProcessesABlock :=
  fun ivp _ hp hm hb i hi =>
    ⟨exec_reserved_aborts hp hb i, fun _ hr => exec_block_ends hp hb hm (plainDec_commands ivp i hi) hr⟩

end Sys2Proof.Machine
end

section
/-! SUPPORT. The CBC engine family (43_cbc_engine): the XOR with the chaining state, the CBC engine's run in both
directions, and one block of each command. -/

namespace Sys2Proof.Machine

/-! ### The XOR with the chaining state (R27, R123) -/

/-- `xorPrefix` computes the XOR that R123 names. -/
theorem xorPrefix_isXor {a b : Block} {n : Nat} (ha : n ≤ a.length) (hb : n ≤ b.length) :
    IsXor (xorPrefix a b n) a b n :=
  ⟨xorPrefix_length a b n ha hb, fun j u v => xorPrefix_getElem? a b n j u v⟩

/-- What lies beyond the prefix is not read. -/
theorem xorPrefix_take_right (a b : Block) {n k : Nat} (h : n ≤ k) : xorPrefix a (b.take k) n = xorPrefix a b n := by
  rw [xorPrefix, List.take_take, Nat.min_eq_left h, xorPrefix]

section chainInv

variable {e : Env} {s : State} (h : s.ChainInv e)

include h

/-- The chaining state is `CLEN` bytes (R27, R28). -/
theorem State.ChainInv.chainBlock_length : s.chainBlock.length = s.clen :=
  Machine.chainBlock_length h.chainLength h.clenBound

/-- The XOR with the chaining state is the XOR with the register `CHAIN`, up to `CLEN` bytes. -/
theorem State.ChainInv.xorPrefix_chainBlock_isXor {b : Block} {n : Nat} (hb : n ≤ b.length) (hn : n ≤ s.clen) :
    IsXor (xorPrefix b s.chainBlock n) b s.chain n := by
  rw [State.chainBlock, xorPrefix_take_right b s.chain hn]
  exact xorPrefix_isXor hb (hn.trans (h.clenBound.trans_eq h.chainLength.symm))

end chainInv

/-! ### The engine's run in each direction (R191, R201) -/

section cbcEngine

@[simp] theorem engineFor_cbc_encrypt : engineFor .cbc .encrypt = cbcEncBlock := rfl
@[simp] theorem engineFor_cbc_decrypt : engineFor .cbc .decrypt = cbcDecBlock := rfl

variable {e : Env} {chain b d : Block}

/-- Encrypting a block longer than the chaining state fails before any invocation (R191, R259). -/
theorem cbcEncBlock_of_gt (h : b.length > chain.length) : cbcEncBlock e chain b = ⟨[], .raise .lengthMismatch⟩ :=
  if_pos h

/-- Encrypting a block no longer than the chaining state is one forward invocation, on the XOR. -/
theorem cbcEncBlock_events_of_le (h : b.length ≤ chain.length) :
    (cbcEncBlock e chain b).events =
      [⟨.fwd, xorPrefix b chain b.length, e.xform .fwd (xorPrefix b chain b.length)⟩] :=
  congrArg EngineRun.events (if_neg h.not_gt)

/-- The answer to that invocation, where it is at most BS bytes, is both the result and the new chaining state. -/
theorem cbcEncBlock_verdict_of_le (h : b.length ≤ chain.length) :
    (cbcEncBlock e chain b).verdict =
      match e.xform .fwd (xorPrefix b chain b.length) with
      | .fail => .raise .transformFailure
      | .ok c => if c.length > e.bs then .raise .lengthMismatch else .ok c (some c) :=
  congrArg EngineRun.verdict (if_neg h.not_gt)

/-- Decrypting fails where the inverse transform does. -/
theorem cbcDecBlock_verdict_of_fail (hx : e.xform .inv b = .fail) :
    (cbcDecBlock e chain b).verdict = .raise .transformFailure := by
  simp [cbcDecBlock, hx]

/-- Decrypting fails where the transform's answer has another length than the chaining state. -/
theorem cbcDecBlock_verdict_of_length_ne (hx : e.xform .inv b = .ok d) (hd : d.length ≠ chain.length) :
    (cbcDecBlock e chain b).verdict = .raise .lengthMismatch := by
  simp [cbcDecBlock, hx, hd]

/-- Else decrypting gives the XOR of the answer with the chaining state, and chains the received block. -/
theorem cbcDecBlock_verdict_of_length_eq (hx : e.xform .inv b = .ok d) (hd : d.length = chain.length) :
    (cbcDecBlock e chain b).verdict = .ok (xorPrefix d chain chain.length) (some b) := by
  simp [cbcDecBlock, hx, hd]

end cbcEngine

/-! ### One block of each command -/

/-- Settles O25: the per-block step with the CBC engine, which encrypts in two cases, by whether the block is longer
than the chaining state. -/
theorem cbcEncProcessesABlock : Obligations.CbcEncProcessesABlock := by
  intro s hc hp hm hb
  have hl := hc.chainBlock_length
  refine ⟨exec_reserved_aborts hp hb .cbcEnc, fun p hr hlt => ?_, fun p hr hle => ?_⟩ <;>
    obtain ⟨t, hstep, hlog, hend⟩ := exec_block_ends (i := .cbcEnc) (dir := .encrypt) hp hb hm rfl hr
  · rw [engineFor_cbc_encrypt, cbcEncBlock_of_gt (hl ▸ hlt)] at hlog hend
    exact ⟨t, hstep, hend, hlog.trans (List.append_nil _)⟩
  · have hfit : p.length ≤ s.chainBlock.length := hl ▸ hle
    rw [engineFor_cbc_encrypt, cbcEncBlock_events_of_le hfit] at hlog
    rw [engineFor_cbc_encrypt, cbcEncBlock_verdict_of_le hfit] at hend
    exact ⟨_, t, hc.xorPrefix_chainBlock_isXor le_rfl hle, hstep, hlog, hend⟩

/-- Settles O26: as O25; the three verdicts in the direction Decrypt are by the transform's answer and its length. -/
theorem cbcDecProcessesABlock : Obligations.CbcDecProcessesABlock := by
  intro s hc hp hm hb
  have hl := hc.chainBlock_length
  refine ⟨fun hr => ?_, fun c hr => ?_⟩
  · obtain ⟨t, hstep, habort, -⟩ := exec_reserved_aborts hp hb .cbcDec hr
    exact ⟨t, hstep, habort⟩
  · obtain ⟨t, hstep, -, hend⟩ := exec_block_ends (i := .cbcDec) (dir := .decrypt) hp hb hm rfl hr
    rw [engineFor_cbc_decrypt] at hend
    refine ⟨t, hstep, ?_⟩
    cases hx : Config.xform .inv c with
    | fail =>
      rw [cbcDecBlock_verdict_of_fail hx] at hend
      exact hend
    | ok d =>
      refine ⟨fun hne => ?_, fun heq => ⟨_, hc.xorPrefix_chainBlock_isXor heq.ge le_rfl, ?_⟩⟩
      · rw [cbcDecBlock_verdict_of_length_ne hx (hl ▸ hne)] at hend
        exact hend
      · rw [cbcDecBlock_verdict_of_length_eq hx (heq.trans hl.symm), hl] at hend
        exact hend

end Sys2Proof.Machine
end

section
/-! SUPPORT. The CFB engine family (44_cfb_engine): the CFB engine's run, which both directions share but for the new
chaining state, how one block ends by the keystream, and the transform invocations of any step. -/

namespace Sys2Proof.Machine

/-! ### The engine's run in either direction (R221, R231) -/

/-- The new chaining state of a block `b` whose XOR with the keystream is `out`: the ciphertext, which is made in the
direction Encrypt and received in the direction Decrypt. -/
def cfbNext (dir : Dir) (b out : Block) : Block :=
  match dir with
  | .encrypt => out
  | .decrypt => b

/-- The two directions differ in the new chaining state alone. -/
theorem engineFor_cfb (e : Env) (dir : Dir) (chain b : Block) :
    engineFor .cfb dir e chain b = cfbBlock e chain b (cfbNext dir b) := by
  cases dir <;> rfl

section cfbEngine

variable {e : Env} {chain b k : Block} {next : Block → Block}

/-- One forward invocation, on the chaining state. -/
theorem cfbBlock_events : (cfbBlock e chain b next).events = [⟨.fwd, chain, e.xform .fwd chain⟩] := rfl

/-- The block fails where the forward transform does. -/
theorem cfbBlock_verdict_of_fail (hx : e.xform .fwd chain = .fail) :
    (cfbBlock e chain b next).verdict = .raise .transformFailure := by
  simp [cfbBlock, hx]

/-- The block fails where the keystream is longer than BS or shorter than the block. -/
theorem cfbBlock_verdict_of_misfit (hx : e.xform .fwd chain = .ok k) (hk : k.length > e.bs ∨ b.length > k.length) :
    (cfbBlock e chain b next).verdict = .raise .lengthMismatch := by
  simp only [cfbBlock, hx]
  split
  · rfl
  · next hbs => exact if_pos (hk.resolve_left hbs)

/-- Else the result is the XOR of the block with the keystream, and the engine chains. -/
theorem cfbBlock_verdict_of_fit (hx : e.xform .fwd chain = .ok k) (hbs : k.length ≤ e.bs) (hb : b.length ≤ k.length) :
    (cfbBlock e chain b next).verdict = .ok (xorPrefix b k b.length) (some (next (xorPrefix b k b.length))) := by
  simp [cfbBlock, hx, hbs.not_gt, hb.not_gt]

end cfbEngine

/-! ### How one block ends, by the answer to the chaining state -/

/-- The ends of one block `b` of a CFB call by the transform's answer, where `next` gives the new chaining state from
the XOR's result (R221, R231). -/
def CfbBlockEnds (e : Env) (s t : State) (b : Block) (next : Block → Block) : XAnswer → Prop
  | .fail => Aborted e s t .transformFailure
  | .ok k =>
    (k.length > e.bs ∨ b.length > k.length → Aborted e s t .lengthMismatch) ∧
    (k.length ≤ e.bs → b.length ≤ k.length → ∃ out, IsXor out b k b.length ∧ BlockDone s t out (some (next out)))

/-- A block that ends as the CFB engine's verdict says ends as the transform's answer says. -/
theorem BlockEnds.cfbBlockEnds {e : Env} {s t : State} {chain b : Block} {next : Block → Block}
    (h : BlockEnds e s t (cfbBlock e chain b next).verdict) : CfbBlockEnds e s t b next (e.xform .fwd chain) := by
  cases hx : e.xform .fwd chain with
  | fail =>
    rw [cfbBlock_verdict_of_fail hx] at h
    exact h
  | ok k =>
    refine ⟨fun hk => ?_, fun hbs hb => ⟨_, xorPrefix_isXor le_rfl hb, ?_⟩⟩
    · rw [cfbBlock_verdict_of_misfit hx hk] at h
      exact h
    · rw [cfbBlock_verdict_of_fit hx hbs hb] at h
      exact h

/-- The per-block step with the CFB engine, on a block that can be read. -/
theorem exec_cfb_block {i : Instr} {dir : Dir} {s : State} {b : Block} (hp : s.phase = .proc) (hm : s.emode = .cfb)
    (hb : s.bidx < s.nblk) (hd : instrDir i = dir) (hr : s.blockRead Config.env s.bidx = .block b) :
    ∃ t, exec i s = .next t ∧
      t.xlog = s.xlog ++ [⟨.fwd, s.chainBlock, Config.xform .fwd s.chainBlock⟩] ∧
      CfbBlockEnds Config.env s t b (cfbNext dir b) (Config.xform .fwd s.chainBlock) := by
  obtain ⟨t, hstep, hlog, hend⟩ := exec_block_ends hp hb hm hd hr
  rw [engineFor_cfb] at hlog hend
  exact ⟨t, hstep, hlog, hend.cfbBlockEnds⟩

/-- Settles O27: the per-block step with the CFB engine, which in the direction Encrypt chains the XOR. -/
theorem cfbEncProcessesABlock : Obligations.CfbEncProcessesABlock :=
  fun _ hp hm hb => ⟨exec_reserved_aborts hp hb .cfbEnc, fun _ hr => exec_cfb_block hp hm hb (dir := .encrypt) rfl hr⟩

/-- Settles O28: as O27; in the direction Decrypt the engine chains the received block. -/
theorem cfbDecProcessesABlock : Obligations.CfbDecProcessesABlock :=
  fun _ hp hm hb => ⟨exec_reserved_aborts hp hb .cfbDec, fun _ hr => exec_cfb_block hp hm hb (dir := .decrypt) rfl hr⟩

/-! ### The transform invocations of any step (R233) -/

/-- Settles O36: a step in PROC adds no invocation or those of the CFB engine on one block, in either direction one
forward invocation on the chaining state. -/
theorem cfbForwardOnly : Obligations.CfbForwardOnly := by
  intro i s t hp hm h
  rw [exec_eq] at h
  obtain hx | ⟨-, b, hx⟩ := sequencerStep_xlog h
  · exact ⟨[], by simp [hx], by simp⟩
  · rw [hm, engineFor_cfb, cfbBlock_events] at hx
    exact ⟨_, hx, by simp⟩

end Sys2Proof.Machine
end

section
/-! SUPPORT. The exceptions family (60_exceptions): the causes an engine can raise, and the two ways in which a
sequencer's step makes a call fail. -/

namespace Sys2Proof.Machine

/-! ### The causes of the engines (R252 to R254) -/

section engineCauses

variable {e : Env} {chain b : Block}

theorem plainBlock_verdict_ne_illegal {d : TDir} : (plainBlock e d b).verdict ≠ .raise .illegalCommand := by
  simp only [plainBlock]
  split
  · simp
  · split <;> simp

theorem cbcEncBlock_verdict_ne_illegal : (cbcEncBlock e chain b).verdict ≠ .raise .illegalCommand := by
  by_cases hl : b.length ≤ chain.length
  · rw [cbcEncBlock_verdict_of_le hl]
    split
    · simp
    · split <;> simp
  · rw [cbcEncBlock_of_gt (Nat.lt_of_not_le hl)]
    simp

theorem cbcDecBlock_verdict_ne_illegal : (cbcDecBlock e chain b).verdict ≠ .raise .illegalCommand := by
  simp only [cbcDecBlock]
  split
  · simp
  · split <;> simp

theorem cfbBlock_verdict_ne_illegal {next : Block → Block} :
    (cfbBlock e chain b next).verdict ≠ .raise .illegalCommand := by
  simp only [cfbBlock]
  split
  · simp
  · split
    · simp
    · split <;> simp

/-- No engine raises `IllegalCommand`, which the INIT step alone raises (R254). -/
theorem engine_verdict_ne_illegal (mode : Mode) (dir : Dir) :
    (engineFor mode dir e chain b).verdict ≠ .raise .illegalCommand := by
  cases mode with
  | plain => cases dir <;> exact plainBlock_verdict_ne_illegal
  | cbc =>
    cases dir with
    | encrypt => exact cbcEncBlock_verdict_ne_illegal
    | decrypt => exact cbcDecBlock_verdict_ne_illegal
  | cfb => cases dir <;> exact cfbBlock_verdict_ne_illegal

end engineCauses

/-! ### The failing steps (R152, R256) -/

/-- After the abort sequence the result is absent (R37). -/
theorem Aborted.result {e : Env} {s t : State} {cause : Cause} (h : Aborted e s t cause) : t.result e = .absent := by
  simp [State.result, h.phase, h.ok]

/-- A sequencer's step that newly sets `FAIL` is the abort sequence: in INIT after R152's three writes, with the cause
`IllegalCommand`; in PROC on the state as it stands, with another cause. -/
theorem sequencerStep_failure {e : Env} {mode : Option Mode} {ivp : Bool} {dir : Dir} {s t : State}
    (h : sequencerStep e mode ivp dir s = .next t) (hs : s.fail = false) (ht : t.fail = true) :
    (s.phase = .init ∧ Aborted e { s with emode := .plain, bidx := 0, dgr := false } t .illegalCommand) ∨
      (s.phase = .proc ∧ ∃ cause, cause ≠ .illegalCommand ∧ Aborted e s t cause) := by
  have changed : t.fail ≠ s.fail := by simp [hs, ht]
  rcases sequencerStep_cases h with ⟨-, rfl⟩ | ⟨hp, -, rfl⟩ | ⟨m, -, -, -, rfl⟩ | ⟨m, -, -, -, -, rfl⟩ |
    ⟨-, -, rfl⟩ | ⟨hp, -, -, rfl⟩ | ⟨b, hp, -, -, rfl⟩
  · exact absurd rfl changed
  · exact .inl ⟨hp, abort_aborted ..⟩
  · exact absurd rfl changed
  · exact absurd rfl changed
  · exact absurd rfl changed
  · exact .inr ⟨hp, .lengthMismatch, by decide, abort_aborted ..⟩
  · have hend := applyRun_blockEnds e hp (engineFor s.emode dir e s.chainBlock b)
    cases hv : (engineFor s.emode dir e s.chainBlock b).verdict with
    | ok out next =>
      rw [hv] at hend
      exact absurd (BlockDone.fail hend) changed
    | raise cause =>
      rw [hv] at hend
      exact .inr ⟨hp, cause, fun hc => engine_verdict_ne_illegal _ _ (hc ▸ hv), hend⟩

/-- Settles O31: the failing step is the abort sequence, no step writes an input, and in DONE no step is enabled. -/
theorem everyFailureIsTheAbortSequence : Obligations.EveryFailureIsTheAbortSequence := by
  intro i s t _ h hdone ht hs
  have hwaits : ∀ j, exec j t = .next t := fun j => coreWaitsInIdleAndDone j t (.inr hdone)
  obtain ⟨hinputs, -⟩ := stepsNeverWriteTheInputs i s t h
  rw [exec_eq] at h
  obtain ⟨hp, ha⟩ | ⟨hp, cause, hc, ha⟩ := sequencerStep_failure h hs ht
  · exact ⟨by simp [ha.err], ha.ok, ha.olen, ha.chain, ha.clen, ha.obuf, ha.result, hinputs, by simp [hp],
      fun _ => ⟨ha.bidx, ha.err⟩, hwaits⟩
  · exact ⟨by simp [ha.err], ha.ok, ha.olen, ha.chain, ha.clen, ha.obuf, ha.result, hinputs,
      fun _ => ⟨ha.bidx, ha.emode, ha.dgr, by simp [ha.err, hc]⟩, by simp [hp], hwaits⟩

end Sys2Proof.Machine
end

section
/-! SUPPORT. The reset and hazards family (70_reset_and_hazards): calls that find written all they read, reset in any
state, and host writes while a call runs. -/

namespace Sys2Proof.Machine

/-! ### A call whose inputs are written goes on (R127, R294) -/

section progress

variable {e : Env} {s : State}

/-- The INIT step of any command, where a command that reads `IV` finds it written. -/
theorem execIn_init_progress {c : BitVec 8} (hp : s.phase = .init) (hiv : readsIv c = true → s.ivUnwritten = []) :
    ∃ t, execIn e (decodeCmd c) s = .next t := by
  cases hm : instrMode (decodeCmd c) with
  | none => exact ⟨_, execIn_init_illegal hp hm⟩
  | some m =>
    have hread : effectiveMode m (ivpOf c) ≠ .plain → s.ivUnwritten = [] := hiv ∘ (readsIv_eq_true hm).2
    rw [execIn_init_legal hp hm, instrIvp_decodeCmd]
    exact (initLegal_next hread).elim (⟨_, ·⟩) (⟨_, ·⟩)

/-- A per-block step on a written block: a reserved length and a raised cause end the call in a next state, too. -/
theorem blockStep_progress (engine : Env → Block → Block → EngineRun) (h : s.blockRead e s.bidx ≠ .unwritten) :
    ∃ t, blockStep e engine s = .next t := by
  unfold blockStep
  cases hr : s.blockRead e s.bidx with
  | unwritten => exact absurd hr h
  | reserved => exact ⟨_, rfl⟩
  | block b => exact ⟨_, rfl⟩

/-- The step in PROC of any command, on a written block or after the last one. -/
theorem execIn_proc_progress (i : Instr) (hp : s.phase = .proc) (hle : s.bidx ≤ s.nblk)
    (hw : s.bidx < s.nblk → s.blockRead e s.bidx ≠ .unwritten) : ∃ t, execIn e i s = .next t := by
  obtain hlt | heq := Nat.lt_or_eq_of_le hle
  · rw [execIn_proc_block i hp hlt]
    exact blockStep_progress _ (hw hlt)
  · exact ⟨_, execIn_proc_finish i hp heq⟩

/-- Where every input is written and `BIDX` is in its bounds, the latched command's step answers a next state. -/
theorem State.InputsWritten.execIn_progress (h : s.InputsWritten e) (hb : s.phase = .proc → s.bidx ≤ s.nblk) :
    ∃ t, execIn e (decodeCmd s.cmd) s = .next t := by
  obtain ⟨hblocks, hiv⟩ := h
  cases hp : s.phase with
  | idle => exact ⟨s, execIn_waits (.inl hp)⟩
  | init => exact execIn_init_progress hp (hiv hp)
  | proc => exact execIn_proc_progress _ hp (hb hp) (hblocks s.bidx)
  | done => exact ⟨s, execIn_waits (.inr hp)⟩

/-- A step of the sequencer leaves written what was written: it writes no input (R78) and never leads to INIT. -/
theorem State.InputsWritten.execIn_keeps {i : Instr} {t : State} (h : s.InputsWritten e)
    (ht : execIn e i s = .next t) : t.InputsWritten e := by
  obtain ⟨hblocks, hiv⟩ := h
  have hin := sequencerStep_sameInputs ht
  refine ⟨fun k hk => ?_, fun hp hr => ?_⟩
  · rw [blockRead_congr hin.ibuf]
    exact hblocks k (hin.nblk ▸ hk)
  · have hinit : s.phase = .init := by_contra fun hne => execIn_phase_ne_init hne ht hp
    exact hin.ivUnwritten.trans (hiv hinit (hin.cmd ▸ hr))

end progress

/-- Settles O39: the invariant bounds `BIDX`, so the step answers a next state, and every step keeps the inputs
written. -/
theorem readyCallsNeverStop : Obligations.ReadyCallsNeverStop := by
  intro s hinv hw
  obtain ⟨t, ht⟩ := hw.execIn_progress hinv.control.bidxBound
  exact ⟨t, (exec_eq ..).trans ht, hw.execIn_keeps ht⟩

/-! ### Reset in any state (R290, R291) -/

/-- A pending reset happens in every phase, whatever the state. -/
theorem stepIn_reset {e : Env} {s : State} {rest : List HostEvent} (h : s.host = .reset :: rest) :
    stepIn e s = .next (State.resetEvent e { s with host := rest }) := by
  unfold stepIn stepBy
  rw [h]

/-- With nothing pending the core stays as it is in IDLE and DONE (R130). -/
theorem stepIn_waits {e : Env} {s : State} (hh : s.host = []) (hp : s.phase = .idle ∨ s.phase = .done) :
    stepIn e s = .next s :=
  (stepIn_of_host_nil hh).trans (execIn_waits hp)

/-- Settles O6: the values are those `State.resetAt` states, and the core then waits in IDLE. -/
theorem resetEventAbandonsTheCall : Obligations.ResetEventAbandonsTheCall := by
  intro s rest h
  refine ⟨_, (step_eq s).trans (stepIn_reset h), rfl, rfl, rfl, rfl, rfl, rfl, rfl, rfl, rfl, rfl, rfl, rfl, rfl, rfl,
    rfl, blockRead_resetAt Config.env (s.epoch + 1), cellRead_nil, rfl, rfl, ?_⟩
  rw [step_eq]
  exact stepIn_waits rfl (.inl rfl)

/-! ### Host writes while a call runs (R301) -/

/-- Settles O12: a write that can be made is ignored while the core is busy. -/
theorem writesWhileBusyAreIgnored : Obligations.WritesWhileBusyAreIgnored := by
  intro s w rest h hr hp
  rw [step_eq, stepIn_write_busy h hr hp]

end Sys2Proof.Machine
end

section
/-! SUPPORT. The invariant: it holds after a reset, and a sequencer's step, a host event and so every step of the
whole keep it. -/

namespace Sys2Proof.Machine

/-! ### The invariant after a reset, and the parts an update settles alone (R40) -/

theorem countFits_zero (e : Env) : countFits e 0 = true := by
  unfold countFits
  cases e.nbmax <;> simp

/-- A count below one that `NBLK` can hold is one it can hold. -/
theorem countFits_of_le {e : Env} {m n : Nat} (hn : countFits e n = true) (h : m ≤ n) : countFits e m = true := by
  unfold countFits at hn ⊢
  cases he : e.nbmax with
  | none => rfl
  | some k =>
    simp only [he, decide_eq_true_eq] at hn ⊢
    omega

/-- An index below `n` blocks' bytes is one of `OBUF`, where `n` is a count of blocks. -/
theorem outputExists_of_lt {e : Env} {n k : Nat} (hn : countFits e n = true) (h : k < n * e.bs) :
    outputExists e k = true := by
  unfold countFits at hn
  unfold outputExists
  cases he : e.nbmax with
  | none => rfl
  | some m =>
    simp only [he, decide_eq_true_eq] at hn ⊢
    exact h.trans_le (Nat.mul_le_mul_right _ hn)

/-- A discarded chaining state meets its invariant in any phase (R29). -/
theorem State.ChainInv.of_discarded {e : Env} {s : State} (hc : s.chain = List.replicate e.bs 0x00#8)
    (hl : s.clen = 0) : s.ChainInv e :=
  ⟨by simp [hc], by simp [hl], fun _ => ⟨hc, hl⟩⟩

/-- An empty output stream over a buffer in canonical form and range meets the output's invariant. -/
theorem State.OutputInv.of_empty {e : Env} {s t : State} (h : s.OutputInv e) (hb : t.obuf = s.obuf)
    (hl : t.olen = 0) : t.OutputInv e :=
  ⟨by simp [hl], by simp [hl], hb ▸ h.obufWf, hb ▸ h.obufRange⟩

/-- The command byte after a reset has the effective mode Plain. -/
theorem State.commandMode_of_cmd_zero {s : State} (h : s.cmd = 0x00#8) : s.commandMode = .plain := by
  rw [State.commandMode, h]
  rfl

/-- The command byte after a reset is no downgrade. -/
theorem State.commandDgr_of_cmd_zero {s : State} (h : s.cmd = 0x00#8) : s.commandDgr = false := by
  rw [State.commandDgr, h]
  rfl

/-- The invariant holds after any reset. -/
theorem inv_resetAt (e : Env) (epoch : Nat) : (State.resetAt e epoch).Inv e where
  inputs := ⟨by simp [State.resetAt], fun j hj => List.mem_range.1 hj, countFits_zero e,
    ⟨List.Pairwise.nil, List.forall_mem_nil _⟩, List.forall_mem_nil _⟩
  chain := .of_discarded rfl rfl
  control := ⟨fun _ => rfl, fun _ => (State.commandMode_of_cmd_zero rfl).symm,
    (State.commandDgr_of_cmd_zero rfl).symm.trans (if_neg Phase.noConfusion).symm, nofun, countFits_zero e, nofun⟩
  output := ⟨Nat.zero_le _, nofun, List.Pairwise.nil, List.forall_mem_nil _⟩
  status := ⟨nofun, fun _ => ⟨rfl, rfl⟩, rfl, nofun⟩
  log := ⟨fun _ => rfl, fun _ => List.forall_mem_nil _, nofun⟩

/-- Settles O7: `State.reset` is the state after the reset number 0. -/
theorem resetMeetsInv : Obligations.ResetMeetsInv := inv_resetAt Config.env 0

/-! ### A sequencer's step keeps each part of the invariant -/

/-- The pending events are no part of the invariant. -/
theorem State.Inv.setHost {e : Env} {s : State} (h : s.Inv e) (rest : List HostEvent) :
    State.Inv e { s with host := rest } where
  inputs := { h.inputs with }
  chain := { h.chain with }
  control := { h.control with }
  output := { h.output with }
  status := { h.status with }
  log := { h.log with }

/-- The inputs' invariant speaks of fields that no step of a call writes. -/
theorem State.InputsInv.of_sameInputs {e : Env} {s t : State} (h : s.InputsInv e) (hin : SameInputs s t) :
    t.InputsInv e :=
  ⟨hin.iv ▸ h.ivLength, hin.ivUnwritten ▸ h.ivUnwritten, hin.nblk ▸ h.nblkFits, hin.ibuf ▸ h.ibufWf,
    hin.ibuf ▸ h.ibufRange⟩

/-- The effective mode of the latched command, where it is legal. -/
theorem State.commandMode_of_legal {s : State} {m : Mode} (hm : instrMode (decodeCmd s.cmd) = some m) :
    s.commandMode = effectiveMode m (ivpOf s.cmd) := by
  simp [State.commandMode, hm]

theorem State.commandDgr_of_legal {s : State} {m : Mode} (hm : instrMode (decodeCmd s.cmd) = some m) :
    s.commandDgr = downgraded m (ivpOf s.cmd) := by
  simp [State.commandDgr, hm]

theorem State.commandMode_congr {s t : State} (hc : t.cmd = s.cmd) : t.commandMode = s.commandMode := by
  rw [State.commandMode, hc, State.commandMode]

theorem State.commandDgr_congr {s t : State} (hc : t.cmd = s.cmd) : t.commandDgr = s.commandDgr := by
  rw [State.commandDgr, hc, State.commandDgr]

section chainToOutput

variable (s : State) (c : Option Block)

@[simp] theorem State.chainTo_obuf : (s.chainTo c).obuf = s.obuf := by cases c <;> rfl
@[simp] theorem State.chainTo_olen : (s.chainTo c).olen = s.olen := by cases c <;> rfl

end chainToOutput

/-- After a step of the sequencer the phase is not INIT: that is START's alone (R30). -/
theorem execIn_leaves_init {e : Env} {i : Instr} {s t : State} (h : execIn e i s = .next t) : t.phase ≠ .init := by
  obtain ⟨hp, rfl⟩ | ⟨-, -, hp⟩ | ⟨-, hp, -⟩ | ⟨-, hp, -⟩ := sequencerStep_control h
  · rcases hp with hp | hp <;> simp [hp]
  · rcases hp with hp | hp <;> simp [hp]
  all_goals simp [hp]

/-- The state after the INIT step of a legal command that finds `IV` written where it reads it (R153). -/
def State.selected (e : Env) (m : Mode) (ivp : Bool) (s : State) : State :=
  { s.select m ivp with
    chain := if effectiveMode m ivp = .plain then s.chain else s.iv
    clen := if effectiveMode m ivp = .plain then s.clen else e.bs }

theorem State.selected_of_plain {m : Mode} {ivp : Bool} (he : effectiveMode m ivp = .plain) (e : Env) (s : State) :
    s.selected e m ivp = s.select m ivp := by
  simp [State.selected, State.select, he]

theorem State.selected_of_chaining {m : Mode} {ivp : Bool} (he : effectiveMode m ivp ≠ .plain) (e : Env) (s : State) :
    s.selected e m ivp = (s.select m ivp).loadChain e s.iv := by
  simp [State.selected, State.loadChain, he]

section latchedStep

variable {e : Env} {s t : State} (h : execIn e (decodeCmd s.cmd) s = .next t)

include h

/-- Everything the step of the latched command can do, with the two ends of a block told apart. -/
theorem execIn_latched_cases :
    ((s.phase = .idle ∨ s.phase = .done) ∧ t = s) ∨
    (s.phase = .init ∧ instrMode (decodeCmd s.cmd) = none ∧
      t = State.abort e .illegalCommand { s with emode := .plain, bidx := 0, dgr := false }) ∨
    (∃ m, s.phase = .init ∧ instrMode (decodeCmd s.cmd) = some m ∧ t = s.selected e m (ivpOf s.cmd)) ∨
    (s.phase = .proc ∧ s.bidx = s.nblk ∧ t = s.finish e) ∨
    (s.phase = .proc ∧ ∃ cause events, t = (s.logEvents events).abort e cause) ∨
    (∃ b out next events, s.phase = .proc ∧ s.bidx < s.nblk ∧ b.length ≤ e.bs ∧
      engineFor s.emode (dirOf s.cmd) e s.chainBlock b = ⟨events, .ok out next⟩ ∧
      t = (((s.logEvents events).append out).chainTo next).advance) := by
  rw [execIn_decodeCmd] at h
  rcases sequencerStep_cases h with hw | hi | ⟨m, hp, hm, he, ht⟩ | ⟨m, hp, hm, he, -, ht⟩ | hf | ⟨hp, -, -, ht⟩ |
    ⟨b, hp, hb, hr, ht⟩
  · exact .inl hw
  · exact .inr (.inl hi)
  · exact .inr (.inr (.inl ⟨m, hp, hm, ht.trans (s.selected_of_plain he e).symm⟩))
  · exact .inr (.inr (.inl ⟨m, hp, hm, ht.trans (s.selected_of_chaining he e).symm⟩))
  · exact .inr (.inr (.inr (.inl hf)))
  · exact .inr (.inr (.inr (.inr (.inl ⟨hp, .lengthMismatch, [], by simpa [State.logEvents] using ht⟩))))
  · obtain ⟨hl, -⟩ := blockRead_length hr
    cases hrun : engineFor s.emode (dirOf s.cmd) e s.chainBlock b with
    | mk events v =>
      rw [hrun] at ht
      cases v with
      | raise cause => exact .inr (.inr (.inr (.inr (.inl ⟨hp, cause, events, ht⟩))))
      | ok out next => exact .inr (.inr (.inr (.inr (.inr ⟨b, out, next, events, hp, hb, hl, hrun, ht⟩))))

/-- `EMODE` and `DGR` are those of the latched command once the INIT step is past (R32, R35). -/
theorem execIn_latched_selected (hc : s.ControlInv e) :
    t.emode = t.commandMode ∧ t.dgr = t.commandDgr := by
  have hin := sequencerStep_sameInputs h
  rw [State.commandMode_congr hin.cmd, State.commandDgr_congr hin.cmd]
  by_cases hs : s.phase = .init
  · obtain ⟨hw, -⟩ | ⟨-, hm, rfl⟩ | ⟨m, -, hm, rfl⟩ | ⟨hs', -⟩ | ⟨hs', -⟩ | ⟨_, _, _, _, hs', -⟩ :=
      execIn_latched_cases h
    · simp [hs] at hw
    · exact ⟨by simp [State.commandMode, hm], by simp [State.commandDgr, hm]⟩
    · rw [State.commandMode_of_legal hm, State.commandDgr_of_legal hm]
      exact ⟨rfl, rfl⟩
    all_goals simp [hs] at hs'
  · obtain ⟨hm, hd⟩ := sequencerStep_keeps_mode hs h
    exact ⟨hm.trans (hc.emodeOf hs), hd.trans (hc.dgrOf.trans (if_neg hs))⟩

/-- A step in PROC leaves the block index within `NBLK`, and so does the INIT step, which sets it to 0 (R31). -/
theorem execIn_latched_bidx (hc : s.ControlInv e) (hn : countFits e s.nblk = true) :
    countFits e t.bidx = true ∧ (t.phase = .proc → t.bidx ≤ t.nblk) := by
  obtain ⟨-, rfl⟩ | ⟨-, h0, -⟩ | ⟨-, -, hlt, hb, hn'⟩ | ⟨-, hdone, hb, -⟩ := sequencerStep_control h
  · exact ⟨hc.bidxFits, hc.bidxBound⟩
  · exact ⟨h0 ▸ countFits_zero e, fun _ => h0 ▸ Nat.zero_le _⟩
  · have hle : t.bidx ≤ s.nblk := by omega
    exact ⟨countFits_of_le hn hle, fun _ => hn' ▸ hle⟩
  · exact ⟨hb ▸ hc.bidxFits, fun hp => by simp [hdone] at hp⟩

/-- Blocks are processed for a legal command only: an illegal one's INIT step ends the call (R101, R152). -/
theorem execIn_latched_procLegal (hc : s.ControlInv e) (hp : t.phase = .proc) :
    (instrMode (decodeCmd s.cmd)).isSome = true := by
  obtain ⟨-, rfl⟩ | ⟨-, -, rfl⟩ | ⟨m, -, hm, -⟩ | ⟨hs, -⟩ | ⟨hs, -⟩ | ⟨_, _, _, _, hs, -⟩ := execIn_latched_cases h
  · exact hc.procLegal hp
  · cases hp
  · exact Option.isSome_of_eq_some hm
  all_goals exact hc.procLegal hs

theorem execIn_latched_controlInv (hc : s.ControlInv e) (hn : countFits e s.nblk = true) : t.ControlInv e := by
  have hin := sequencerStep_sameInputs h
  have hi := execIn_leaves_init h
  obtain ⟨hmode, hdgr⟩ := execIn_latched_selected h hc
  obtain ⟨hfits, hbound⟩ := execIn_latched_bidx h hc hn
  refine ⟨fun hp => ?_, fun _ => hmode, hdgr.trans (if_neg hi).symm, fun hp => ?_, hfits, hbound⟩
  · obtain hs | ⟨-, hp' | hp'⟩ | ⟨-, hp'⟩ := execIn_phase h
    · exact hin.cmd.trans (hc.idleCmd (hs ▸ hp))
    all_goals simp [hp] at hp'
  · exact hin.cmd.symm ▸ execIn_latched_procLegal h hc hp

theorem execIn_latched_chainInv (hc : s.ChainInv e) (hiv : s.iv.length = e.bs) : t.ChainInv e := by
  obtain ⟨-, rfl⟩ | ⟨-, -, rfl⟩ | ⟨m, hp, -, rfl⟩ | ⟨-, -, rfl⟩ | ⟨-, cause, events, rfl⟩ |
    ⟨b, out, next, events, hp, -, hb, hrun, rfl⟩ := execIn_latched_cases h
  · exact hc
  · exact .of_discarded rfl rfl
  · obtain ⟨hchain, hclen⟩ := hc.discarded (.inl (by simp [hp]))
    by_cases he : effectiveMode m (ivpOf s.cmd) = .plain
    · exact s.selected_of_plain he e ▸ .of_discarded hchain hclen
    · exact s.selected_of_chaining he e ▸ ⟨hiv, le_rfl, fun hd => absurd hd (by simp [he])⟩
  · exact .of_discarded rfl rfl
  · exact .of_discarded rfl rfl
  · obtain ⟨-, hplain, hnext⟩ := engine_ok_length (hc.chainBlock_length.trans_le hc.clenBound) hb
      (congrArg EngineRun.verdict hrun)
    cases next with
    | none => exact { hc with }
    | some c =>
      have hc' : c.length ≤ e.bs := hnext c rfl
      refine ⟨setChain_chain_length hc.chainLength hc', hc', fun hd => ?_⟩
      have hd' : s.phase ≠ .proc ∨ s.emode = .plain := hd
      exact absurd (hplain (hd'.resolve_left (not_not.2 hp))) (by simp)

theorem execIn_latched_outputInv (ho : s.OutputInv e) (hc : s.ChainInv e) (hn : countFits e s.nblk = true) :
    t.OutputInv e := by
  obtain ⟨-, rfl⟩ | ⟨-, -, rfl⟩ | ⟨m, -, -, rfl⟩ | ⟨-, -, rfl⟩ | ⟨-, cause, events, rfl⟩ |
    ⟨b, out, next, events, -, hb, hbl, hrun, rfl⟩ := execIn_latched_cases h
  · exact ho
  · exact ho.of_empty rfl rfl
  · exact ho.of_empty rfl rfl
  · exact { ho with }
  · exact ho.of_empty rfl rfl
  · obtain ⟨hout, -⟩ := engine_ok_length (hc.chainBlock_length.trans_le hc.clenBound) hbl
      (congrArg EngineRun.verdict hrun)
    have hol : s.olen + out.length ≤ (s.bidx + 1) * e.bs := by
      rw [Nat.add_mul, Nat.one_mul]
      exact Nat.add_le_add ho.olenBound hout
    refine ⟨by simpa using hol, ?_, ?_, ?_⟩
    · simpa using append_written (s := s) out ho.outputWritten
    · simpa using Memory.wf_writeBytes s.olen out ho.obufWf
    · intro c hmem
      rcases mem_writeBytes (by simpa using hmem) with hmem | ⟨-, hlt⟩
      · exact ho.obufRange c hmem
      · exact outputExists_of_lt (countFits_of_le hn hb) (hlt.trans_le hol)

theorem execIn_latched_statusInv (hs : s.StatusInv) : t.StatusInv := by
  obtain ⟨-, rfl⟩ | ⟨-, -, rfl⟩ | ⟨m, hp, -, rfl⟩ | ⟨hp, -, rfl⟩ | ⟨-, cause, events, rfl⟩ |
    ⟨b, out, next, events, hp, -, -, -, rfl⟩ := execIn_latched_cases h
  · exact hs
  · exact ⟨fun _ => rfl, nofun, rfl, fun _ => rfl⟩
  · have hno := hs.elseNone (by simp [hp])
    exact ⟨nofun, fun _ => hno, hs.errFail, fun _ => rfl⟩
  · obtain ⟨-, hf⟩ := hs.elseNone (by simp [hp])
    exact ⟨fun _ => by simp [hf], nofun, hs.errFail, hs.failEmpty⟩
  · exact ⟨fun _ => rfl, nofun, rfl, fun _ => rfl⟩
  · have hno := hs.elseNone (by simp [hp])
    have hd := append_blockDone hp events out next
    refine ⟨fun hdone => ?_, fun _ => ?_, ?_, fun hf => ?_⟩
    · simp [hp] at hdone
    · rwa [hd.ok, hd.fail]
    · rw [hd.err, hd.fail, hs.errFail]
    · rw [hd.fail, hno.2] at hf
      cases hf

/-- The recorded invocations keep the direction `TDIR`: a block's have that of `EMODE` and `CMD.DIR`, which stay once
the INIT step is past, and before it none is recorded (R121). -/
theorem execIn_latched_tdir (hl : s.LogInv) : ∀ x ∈ t.xlog, x.tdir = t.tdir := by
  have hlog := sequencerStep_xlog h
  by_cases hp : s.phase = .init
  · simp [hp, hl.xlogEmpty] at hlog
    simp [hlog]
  · rw [State.tdir_congr (sequencerStep_keeps_mode hp h).1 (sequencerStep_sameInputs h).cmd]
    obtain hx | ⟨-, b, hx⟩ := hlog
    · exact hx ▸ hl.xlogTdir hp
    · rw [hx, List.forall_mem_append]
      refine ⟨hl.xlogTdir hp, fun x hmem => ?_⟩
      rw [engine_tdir e _ _ _ _ x hmem, instrDir_decodeCmd, State.tdir]

/-- While blocks are processed, each has recorded one answered invocation, `CBC.DEC` apart (R122). -/
theorem execIn_latched_xlogCount (hl : s.LogInv) (hp : t.phase = .proc) (hne : ¬ t.IsCbcDec) :
    t.xlog.length = t.bidx ∧ ∀ x ∈ t.xlog, x.answer ≠ .fail := by
  obtain ⟨-, rfl⟩ | ⟨-, -, rfl⟩ | ⟨m, hs, -, rfl⟩ | ⟨-, -, rfl⟩ | ⟨-, cause, events, rfl⟩ |
    ⟨b, out, next, events, hs, -, -, hrun, rfl⟩ := execIn_latched_cases h
  · exact hl.xlogCount hp hne
  · cases hp
  · have hx : s.xlog = [] := hl.xlogEmpty (.inl hs)
    simp [State.selected, hx]
  · cases hp
  · cases hp
  · have hd := append_blockDone hs events out next
    have hne' : ¬ s.IsCbcDec := by rwa [State.IsCbcDec, hd.emode, hd.frame.cmd] at hne
    obtain ⟨hlen, hans⟩ := hl.xlogCount hs hne'
    obtain ⟨x, hx, hxa⟩ := engine_ok_events (congrArg EngineRun.verdict hrun)
    obtain rfl : events = [x] := by rwa [hrun] at hx
    simp only [State.advance_xlog, State.advance_bidx, State.chainTo_xlog, State.chainTo_bidx, State.append_xlog,
      State.append_bidx, State.logEvents_xlog, State.logEvents_bidx, List.length_append, hlen, List.length_singleton,
      List.forall_mem_append, List.forall_mem_singleton]
    exact ⟨trivial, hans, hxa⟩

theorem execIn_latched_logInv (hl : s.LogInv) : t.LogInv := by
  refine ⟨fun hp => ?_, fun _ => execIn_latched_tdir h hl, execIn_latched_xlogCount h hl⟩
  obtain ⟨-, rfl⟩ | ⟨-, -, hp'⟩ | ⟨-, hp', -⟩ | ⟨-, hp', -⟩ := sequencerStep_control h
  · exact hl.xlogEmpty hp
  · rcases hp' with hp' | hp' <;> simp [hp'] at hp
  all_goals simp [hp'] at hp

/-- The latched command's step keeps the invariant. -/
theorem State.Inv.execIn_keeps (hs : s.Inv e) : t.Inv e where
  inputs := hs.inputs.of_sameInputs (sequencerStep_sameInputs h)
  chain := execIn_latched_chainInv h hs.chain hs.inputs.ivLength
  control := execIn_latched_controlInv h hs.control hs.inputs.nblkFits
  output := execIn_latched_outputInv h hs.output hs.chain hs.inputs.nblkFits
  status := execIn_latched_statusInv h hs.status
  log := execIn_latched_logInv h hs.log

end latchedStep

/-! ### A host event keeps the invariant, and so does every step of the whole -/

/-- START keeps the invariant: the call before is over, its chaining state discarded (R126). -/
theorem State.Inv.start_keeps {e : Env} {s : State} (h : s.Inv e) (hp : s.phase ≠ .proc) (v : BitVec 8) :
    (s.start v).Inv e where
  inputs := { h.inputs with }
  chain := .of_discarded (h.chain.discarded (.inl hp)).1 (h.chain.discarded (.inl hp)).2
  control := ⟨nofun, fun hi => absurd rfl hi, rfl, nofun, h.control.bidxFits, nofun⟩
  output := { h.output with }
  status := ⟨nofun, fun _ => ⟨rfl, rfl⟩, rfl, nofun⟩
  log := ⟨fun _ => rfl, fun hi => absurd rfl hi, nofun⟩

/-- A change of the inputs alone, outside PROC, keeps the invariant where it keeps theirs. -/
theorem State.Inv.of_inputs {e : Env} {s t : State} (h : s.Inv e) (hp : s.phase ≠ .proc)
    (ht : t = { s with iv := t.iv, ivUnwritten := t.ivUnwritten, nblk := t.nblk, ibuf := t.ibuf })
    (hin : t.InputsInv e) : t.Inv e := by
  refine ⟨hin, ?_, ?_, ?_, ?_, ?_⟩ <;> rw [ht]
  · exact { h.chain with }
  · exact { h.control with bidxBound := fun hproc => absurd hproc hp }
  · exact { h.output with }
  · exact { h.status with }
  · exact { h.log with }

/-- Any entry of `IBUF`, written or not, is in range where its block exists. -/
theorem State.InputsInv.entryAt_inRange {e : Env} {s : State} (h : s.InputsInv e) {i : Nat}
    (hi : blockExists e i = true) : EntryInRange e i (entryAt s.ibuf i) := by
  unfold entryAt
  cases hr : cellRead s.ibuf i with
  | none => exact ⟨hi, nofun, List.forall_mem_nil _⟩
  | some en => exact h.ibufRange _ (cellRead_mem hr)

/-- A new entry of `IBUF` in canonical form and range keeps the inputs' invariant. -/
theorem State.InputsInv.updateEntry_keeps {e : Env} {s : State} (h : s.InputsInv e) {i : Nat} {f : InEntry → InEntry}
    (hwf : Memory.wf (f (entryAt s.ibuf i)).data) (hne : f (entryAt s.ibuf i) ≠ emptyEntry)
    (hr : EntryInRange e i (f (entryAt s.ibuf i))) : (s.updateEntry i f).InputsInv e := by
  refine { h with ibufWf := ibufWf_write i _ h.ibufWf hwf hne, ibufRange := fun x hx => ?_ }
  obtain rfl | hx := mem_cellWrite hx
  · exact hr
  · exact h.ibufRange x hx

/-- A host write that can be made keeps the inputs in their ranges (R24 to R26). -/
theorem State.InputsInv.applyWrite_keeps {e : Env} {s : State} (h : s.InputsInv e) {w : HostWrite}
    (hw : writeRefusal e w = none) : (s.applyWrite w).InputsInv e := by
  cases w with
  | reg r v =>
    cases r
    case nblk => exact { h with nblkFits := show countFits e v = true by simpa [writeRefusal] using hw }
    all_goals exact { h with }
  | iv j b =>
    refine { h with ivLength := (List.length_set ..).trans h.ivLength, ivUnwritten := fun k hk => ?_ }
    exact h.ivUnwritten k (List.mem_filter.1 hk).1
  | ibufLen i n =>
    obtain ⟨hi, hn⟩ : blockExists e i = true ∧ n < lenLimit e := by
      simp only [writeRefusal] at hw
      split_ifs at hw with hi hn
      exact ⟨hi, hn⟩
    obtain ⟨-, -, hdata⟩ := h.entryAt_inRange hi
    rw [State.applyWrite]
    refine h.updateEntry_keeps (entryAt_wf i h.ibufWf) (by simp [emptyEntry]) ⟨hi, ?_, hdata⟩
    rintro _ ⟨⟩
    exact hn
  | ibufData i j b =>
    obtain ⟨hi, hj⟩ : blockExists e i = true ∧ j < e.bs := by simpa [writeRefusal] using hw
    obtain ⟨-, hlen, hdata⟩ := h.entryAt_inRange hi
    rw [State.applyWrite]
    have hne := cellWrite_ne_nil (entryAt s.ibuf i).data j b
    refine h.updateEntry_keeps (Memory.wf_cellWrite j b (entryAt_wf i h.ibufWf)) (by simp [emptyEntry, hne])
      ⟨hi, hlen, fun c hc => ?_⟩
    obtain rfl | hc := mem_cellWrite hc
    · exact hj
    · exact hdata c hc

/-- An accepted host write keeps the invariant. -/
theorem State.Inv.applyWrite_keeps {e : Env} {s : State} (h : s.Inv e) (hp : s.phase ≠ .proc) {w : HostWrite}
    (hw : writeRefusal e w = none) : (s.applyWrite w).Inv e := by
  have hin := h.inputs.applyWrite_keeps hw
  cases w with
  | reg r v =>
    cases r
    case cmd => exact h.start_keeps hp _
    case nblk => exact h.of_inputs hp rfl hin
    all_goals exact h
  | iv j b => exact h.of_inputs hp rfl hin
  | ibufLen i n => exact h.of_inputs hp rfl hin
  | ibufData i j b => exact h.of_inputs hp rfl hin

/-- Every step of the whole keeps the invariant, in any environment. -/
theorem State.Inv.stepIn_keeps {e : Env} {s t : State} (hs : s.Inv e) (h : stepIn e s = .next t) : t.Inv e := by
  rcases stepIn_cases h with hx | ⟨rest, -, hx⟩ | ⟨rest, -, -, rfl⟩ | ⟨rest, -, rfl⟩ | ⟨w, rest, -, hw, hb⟩
  · exact hs.execIn_keeps hx
  · exact (hs.setHost rest).execIn_keeps hx
  · exact hs.setHost rest
  · exact (inv_resetAt e _).setHost rest
  · obtain ⟨-, rfl⟩ | ⟨hb, rfl⟩ := hb
    · exact hs.setHost rest
    · refine (hs.setHost rest).applyWrite_keeps (fun hp => ?_) hw
      simp [State.busy, show s.phase = .proc from hp] at hb

/-- Settles O8: the step in any environment, at the machine's own. -/
theorem stepKeepsInv : Obligations.StepKeepsInv := by
  intro s t hs h
  rw [step_eq] at h
  exact hs.stepIn_keeps h

end Sys2Proof.Machine
end

section
/-! SUPPORT. What the invariant gives: the values of `STATUS`, and how a call ends: in time, as the whole-call
function says, and independently of the calls before it. -/

namespace Sys2Proof.Machine

/-! ### The word `STATUS` (R35, R97) -/

/-- Each bit of `STATUS` is its flag, and the other bits read as 0. -/
theorem status_bits (s : State) :
    s.status.getLsbD 0 = s.busy ∧ s.status.getLsbD 1 = s.isDone ∧ s.status.getLsbD 2 = s.ok ∧
      s.status.getLsbD 3 = s.fail ∧ s.status.getLsbD 4 = s.dgr ∧ s.status.extractLsb' 5 3 = 0#3 := by
  unfold State.status
  generalize s.busy = busy, s.isDone = done, s.ok = ok, s.fail = fail, s.dgr = dgr
  revert busy done ok fail dgr
  decide

theorem State.busy_eq_decide (s : State) : s.busy = decide (s.phase = .init ∨ s.phase = .proc) :=
  Bool.eq_iff_iff.2 (s.busy_eq_true.trans decide_eq_true_iff.symm)

theorem State.isDone_eq_decide (s : State) : s.isDone = decide (s.phase = .done) :=
  Bool.eq_iff_iff.2 (s.isDone_eq_true.trans decide_eq_true_iff.symm)

/-- `STATUS` from the phase and the three stored flags. -/
theorem status_eq {s : State} {p : Phase} {ok fail dgr : Bool} (hp : s.phase = p) (hok : s.ok = ok)
    (hfail : s.fail = fail) (hdgr : s.dgr = dgr) :
    s.status = 0#3 ++ BitVec.ofBool dgr ++ BitVec.ofBool fail ++ BitVec.ofBool ok
      ++ BitVec.ofBool (decide (p = .done)) ++ BitVec.ofBool (decide (p = .init ∨ p = .proc)) := by
  rw [State.status, s.busy_eq_decide, s.isDone_eq_decide, hp, hok, hfail, hdgr]

/-- The values of `STATUS` in each phase: in DONE exactly one of `OK` and `FAIL` is 1, in the other phases neither, and
`DGR` is 0 before the INIT step (R35). -/
theorem State.Inv.status_values {e : Env} {s : State} (h : s.Inv e) :
    (s.phase = .idle → s.status = 0x00#8) ∧
    (s.phase = .init → s.status = 0x01#8) ∧
    (s.phase = .proc → s.status = 0x01#8 ∨ s.status = 0x11#8) ∧
    (s.phase = .done → s.ok = true → s.status = 0x06#8 ∨ s.status = 0x16#8) ∧
    (s.phase = .done → s.fail = true → s.status = 0x0A#8 ∨ s.status = 0x1A#8) := by
  have hone := h.status.doneOne
  have hnone := h.status.elseNone
  have hdgr := h.control.dgrOf
  have hflag : s.dgr = false ∨ s.dgr = true := (Bool.eq_false_or_eq_true s.dgr).symm
  refine ⟨fun hp => ?_, fun hp => ?_, fun hp => ?_, fun hp hok => ?_, fun hp hfail => ?_⟩
  · obtain ⟨hok, hfail⟩ := hnone (by simp [hp])
    have hd : s.commandDgr = false := State.commandDgr_of_cmd_zero (h.control.idleCmd hp)
    exact status_eq hp hok hfail (hdgr.trans (by rw [if_neg (by simp [hp]), hd]))
  · obtain ⟨hok, hfail⟩ := hnone (by simp [hp])
    exact status_eq hp hok hfail (hdgr.trans (if_pos hp))
  · obtain ⟨hok, hfail⟩ := hnone (by simp [hp])
    exact hflag.imp (status_eq hp hok hfail) (status_eq hp hok hfail)
  · have hfail : s.fail = false := by simpa [hok] using (hone hp).symm
    exact hflag.imp (status_eq hp hok hfail) (status_eq hp hok hfail)
  · have hok : s.ok = false := by simpa [hfail] using hone hp
    exact hflag.imp (status_eq hp hok hfail) (status_eq hp hok hfail)

/-- Settles O9: bit by bit in any state, and by the phase where the invariant holds. -/
theorem statusWordValues : Obligations.StatusWordValues := by
  refine ⟨fun s => ?_, fun s h => h.status_values⟩
  obtain ⟨hb, hd, hrest⟩ := status_bits s
  exact ⟨hb.trans s.busy_eq_decide, hd.trans s.isDone_eq_decide, hrest⟩

/-! ### Beyond the last block (R31, R127) -/

/-- In PROC, beyond the last block, neither the finish step nor a per-block step is enabled. -/
theorem execIn_proc_beyond {e : Env} {s : State} (i : Instr) (hp : s.phase = .proc) (hb : s.nblk < s.bidx) :
    execIn e i s = .fault .noStepEnabled := by
  simp [execIn, sequencerStep, hp, hb.ne', hb.not_gt]

/-- Settles O30: no step is enabled there for any command. -/
theorem noStepBeyondTheLastBlock : Obligations.NoStepBeyondTheLastBlock := by
  intro i s hp hb
  rw [exec_eq, execIn_proc_beyond i hp hb]

/-! ### Runs -/

/-- With nothing pending a run stays in DONE (R130). -/
theorem runIn_done {e : Env} {s : State} (hh : s.host = []) (hp : s.phase = .done) (k : Nat) :
    runIn e k s = .next s := by
  induction k with
  | zero => rfl
  | succ k ih => simp only [runIn, stepIn_waits hh (.inr hp), ih]

/-- A run whose first step is known goes on from its state. -/
theorem runIn_succ_of_next {e : Env} {s t : State} (h : stepIn e s = .next t) (k : Nat) :
    runIn e (k + 1) s = runIn e k t := by
  simp only [runIn, h]

/-- A run that answers a next state is a first step that does, and a run from its state. -/
theorem runIn_succ_eq_next {e : Env} {s t : State} {k : Nat} :
    runIn e (k + 1) s = .next t ↔ ∃ u, stepIn e s = .next u ∧ runIn e k u = .next t := by
  rw [runIn]
  cases stepIn e s <;> simp

/-- Every run keeps the invariant. -/
theorem State.Inv.runIn_keeps {e : Env} {s t : State} {k : Nat} (hs : s.Inv e) (h : runIn e k s = .next t) :
    t.Inv e := by
  induction k generalizing s with
  | zero =>
    cases h
    exact hs
  | succ k ih =>
    obtain ⟨u, hu, hrun⟩ := runIn_succ_eq_next.1 h
    exact ih (hs.stepIn_keeps hu) hrun

/-! ### A call with its inputs written ends in time (R130, R305) -/

/-- From PROC on, one step for each block left and the finish step are enough. -/
theorem runIn_proc_ends {e : Env} {s : State} {n : Nat} (hs : s.Inv e) (hw : s.InputsWritten e) (hh : s.host = [])
    (hp : s.phase = .proc) (hn : s.nblk ≤ s.bidx + n) : ∃ t, runIn e (n + 1) s = .next t ∧ t.phase = .done := by
  induction n generalizing s with
  | zero =>
    have hb : s.bidx = s.nblk := Nat.le_antisymm (hs.control.bidxBound hp) hn
    exact ⟨s.finish e, runIn_succ_of_next ((stepIn_of_host_nil hh).trans (execIn_proc_finish _ hp hb)) 0, rfl⟩
  | succ n ih =>
    obtain ⟨t, ht⟩ := hw.execIn_progress hs.control.bidxBound
    have hhost : t.host = [] := (sequencerStep_sameInputs ht).host.trans hh
    rw [runIn_succ_of_next ((stepIn_of_host_nil hh).trans ht)]
    obtain ⟨hp', -⟩ | ⟨hp', -⟩ | ⟨-, htp, -, hb, hnb⟩ | ⟨-, htp, -⟩ := sequencerStep_control ht
    · simp [hp] at hp'
    · simp [hp] at hp'
    · exact ih (hs.execIn_keeps ht) (hw.execIn_keeps ht) hhost htp (by omega)
    · exact ⟨t, runIn_done hhost htp _, htp⟩

/-- A call takes the INIT step, one step for each block and the finish step at most. -/
theorem runIn_call_ends {e : Env} {s : State} (hs : s.Inv e) (hw : s.InputsWritten e) (hh : s.host = [])
    (hp : s.phase = .init) : ∃ t, runIn e (s.nblk + 2) s = .next t ∧ t.phase = .done := by
  obtain ⟨t, ht⟩ := hw.execIn_progress hs.control.bidxBound
  have hin := sequencerStep_sameInputs ht
  rw [runIn_succ_of_next ((stepIn_of_host_nil hh).trans ht)]
  obtain ⟨hp', -⟩ | ⟨-, hb, htp | htp⟩ | ⟨hp', -⟩ | ⟨hp', -⟩ := sequencerStep_control ht
  · simp [hp] at hp'
  · exact runIn_proc_ends (hs.execIn_keeps ht) (hw.execIn_keeps ht) (hin.host.trans hh) htp (by simp [hin.nblk])
  · exact ⟨t, runIn_done (hin.host.trans hh) htp _, htp⟩
  · simp [hp] at hp'
  · simp [hp] at hp'

/-- Settles O41: the machine's run is the run in its own environment. -/
theorem callsEndInTime : Obligations.CallsEndInTime := by
  intro s hs hh hp hw
  rw [run_eq]
  exact runIn_call_ends hs hw hh hp

/-! ### A call runs as the whole-call function (R131) -/

/-- The blocks from an index on, the first apart. -/
theorem blocksFrom_succ {e : Env} {s : State} {i n : Nat} {blocks : List Block}
    (h : s.blocksFrom e i (n + 1) = some blocks) :
    ∃ b rest, blocks = b :: rest ∧ s.blockRead e i = .block b ∧ s.blocksFrom e (i + 1) n = some rest := by
  simp only [State.blocksFrom] at h
  split at h
  · next b rest hb hr =>
    cases h
    exact ⟨b, rest, rfl, hb, hr⟩
  · cases h

/-- The blocks depend on `IBUF` alone. -/
theorem blocksFrom_congr {e : Env} {s t : State} (h : t.ibuf = s.ibuf) (i n : Nat) :
    t.blocksFrom e i n = s.blocksFrom e i n := by
  induction n generalizing i with
  | zero => rfl
  | succ n ih => simp only [State.blocksFrom, blockRead_congr h, ih]

/-- The fold of R131 on a block that the engine answers. -/
theorem processFrom_cons_ok {e : Env} {engine : Env → Block → Block → EngineRun} {chain b out : Block}
    {next : Option Block} (hb : b.length ≤ e.bs) (h : (engine e chain b).verdict = .ok out next) (idx : Nat)
    (acc : Block) (rest : List Block) :
    processFrom e engine chain idx acc (b :: rest) =
      processFrom e engine (next.getD chain) (idx + 1) (acc ++ out) rest := by
  rw [processFrom, if_neg hb.not_gt, h]

/-- The fold of R131 on a block for which the engine raises a cause. -/
theorem processFrom_cons_raise {e : Env} {engine : Env → Block → Block → EngineRun} {chain b : Block}
    {cause : Cause} (hb : b.length ≤ e.bs) (h : (engine e chain b).verdict = .raise cause) (idx : Nat)
    (acc : Block) (rest : List Block) :
    processFrom e engine chain idx acc (b :: rest) = .absent cause idx := by
  rw [processFrom, if_neg hb.not_gt, h]

/-- The fold that is left to a call in PROC. -/
def State.foldFrom (e : Env) (s : State) (blocks : List Block) : CallEnd :=
  processFrom e (engineFor s.emode (dirOf s.cmd)) s.chainBlock s.bidx (s.output e) blocks

/-- After the abort sequence the call has ended absent, with its cause, at its block. -/
theorem Aborted.endedAs {e : Env} {s t : State} {cause : Cause} (h : Aborted e s t cause) (n : Nat) :
    t.EndedAs e n (.absent cause s.bidx) :=
  ⟨h.result, h.olen, h.err, h.bidx⟩

/-- After the finish step the call has ended present, with the output stream. -/
theorem finish_endedAs {e : Env} {s : State} (hb : s.bidx = s.nblk) (herr : s.err = none) :
    (s.finish e).EndedAs e s.nblk (.present (s.output e)) :=
  ⟨finish_result e s, (output_length e s).symm, herr, hb⟩

/-- The chaining state after an engine's update, and as it was where there is none. -/
theorem chainTo_chainBlock (s : State) (c : Option Block) : (s.chainTo c).chainBlock = c.getD s.chainBlock := by
  cases c with
  | none => rfl
  | some c => exact setChain_chainBlock s c

/-- A processed block takes the state and the fold one block on. -/
theorem foldFrom_block {e : Env} {s : State} {b : Block} (hs : s.Inv e) (hb : b.length ≤ e.bs) {out : Block}
    {next : Option Block} (hv : (engineFor s.emode (dirOf s.cmd) e s.chainBlock b).verdict = .ok out next)
    (events : List XEvent) (rest : List Block) :
    s.foldFrom e (b :: rest) = ((((s.logEvents events).append out).chainTo next).advance).foldFrom e rest := by
  have hchain : ((((s.logEvents events).append out).chainTo next).advance).chainBlock = next.getD s.chainBlock :=
    chainTo_chainBlock _ next
  have hout : ((((s.logEvents events).append out).chainTo next).advance).output e = s.output e ++ out := by
    rw [← output_append out hs.output.outputWritten]
    cases next <;> rfl
  rw [State.foldFrom, processFrom_cons_ok hb hv, State.foldFrom, hchain, hout]
  cases next <;> rfl

/-- Before the end of a call there is no cause (R36). -/
theorem State.StatusInv.err_eq_none {s : State} (h : s.StatusInv) (hp : s.phase ≠ .done) : s.err = none := by
  simpa [(h.elseNone hp).2] using h.errFail

/-- From PROC on, the run over the blocks left ends as the fold over them. -/
theorem runIn_proc_endedAs {e : Env} {s : State} {n : Nat} {blocks : List Block} (hs : s.Inv e) (hh : s.host = [])
    (hp : s.phase = .proc) (hn : s.bidx + n = s.nblk) (hb : s.blocksFrom e s.bidx n = some blocks) :
    ∃ t, runIn e (n + 1) s = .next t ∧ t.phase = .done ∧ t.EndedAs e s.nblk (s.foldFrom e blocks) := by
  induction n generalizing s blocks with
  | zero =>
    cases hb
    have herr : s.err = none := hs.status.err_eq_none (by simp [hp])
    exact ⟨s.finish e, runIn_succ_of_next ((stepIn_of_host_nil hh).trans (execIn_proc_finish _ hp hn)) 0, rfl,
      finish_endedAs hn herr⟩
  | succ n ih =>
    obtain ⟨b, rest, rfl, hr, hrest⟩ := blocksFrom_succ hb
    obtain ⟨hlen, -⟩ := blockRead_length hr
    have hstep : execIn e (decodeCmd s.cmd) s =
        .next (applyRun e (engineFor s.emode (dirOf s.cmd) e s.chainBlock b) s) := by
      rw [execIn_proc_block _ hp (by omega), instrDir_decodeCmd]
      simp [blockStep, hr]
    have hin := sequencerStep_sameInputs hstep
    have hends := applyRun_blockEnds e hp (engineFor s.emode (dirOf s.cmd) e s.chainBlock b)
    rw [runIn_succ_of_next ((stepIn_of_host_nil hh).trans hstep)]
    obtain ⟨cause, hv, ha⟩ | ⟨out, next, hv, ha⟩ :=
      applyRun_cases e (engineFor s.emode (dirOf s.cmd) e s.chainBlock b) s
    · rw [hv] at hends
      rw [State.foldFrom, processFrom_cons_raise hlen hv]
      exact ⟨_, runIn_done (hin.host.trans hh) hends.phase _, hends.phase, hends.endedAs _⟩
    · rw [hv] at hends
      have hbidx := BlockDone.bidx hends
      obtain ⟨t, ht, hdone, hended⟩ := ih (hs.execIn_keeps hstep) (hin.host.trans hh) (BlockDone.phase hends)
        (by rw [hin.nblk]; omega) (by rwa [hbidx, blocksFrom_congr hin.ibuf])
      refine ⟨t, ht, hdone, ?_⟩
      rwa [hin.nblk, ha, ← foldFrom_block hs hlen hv] at hended

/-- The whole-call function of a legal command is the fold left after its INIT step. -/
theorem process_eq_foldFrom {e : Env} {s : State} {m : Mode} (hs : s.Inv e) (hp : s.phase = .init)
    (hm : instrMode (decodeCmd s.cmd) = some m) (blocks : List Block) :
    process e s.cmd s.iv blocks = (s.selected e m (ivpOf s.cmd)).foldFrom e blocks := by
  have hchain : (s.selected e m (ivpOf s.cmd)).chainBlock =
      if effectiveMode m (ivpOf s.cmd) = .plain then [] else s.iv := by
    obtain ⟨-, hclen⟩ := hs.chain.discarded (.inl (by simp [hp]))
    split
    · next he => simp [s.selected_of_plain he, State.chainBlock, hclen]
    · next he => simp [s.selected_of_chaining he, State.chainBlock, ← hs.inputs.ivLength]
  have hout : (s.selected e m (ivpOf s.cmd)).output e = [] := output_eq_nil rfl
  rw [process, hm, State.foldFrom, hchain, hout]
  rfl

/-- A call that finds written all it reads ends as the whole-call function says, in any environment. -/
theorem runIn_call_endedAs {e : Env} {s : State} {blocks : List Block} (hs : s.Inv e) (hh : s.host = [])
    (hp : s.phase = .init) (hb : s.blocks e = some blocks) (hiv : readsIv s.cmd = true → s.ivUnwritten = []) :
    ∃ t, runIn e (s.nblk + 2) s = .next t ∧ t.phase = .done ∧
      t.EndedAs e s.nblk (process e s.cmd s.iv blocks) := by
  obtain ⟨t, ht⟩ := execIn_init_progress (e := e) hp hiv
  have hin := sequencerStep_sameInputs ht
  have hhost : t.host = [] := hin.host.trans hh
  rw [runIn_succ_of_next ((stepIn_of_host_nil hh).trans ht)]
  obtain ⟨hp', -⟩ | ⟨-, hm, rfl⟩ | ⟨m, -, hm, rfl⟩ | ⟨hp', -⟩ | ⟨hp', -⟩ | ⟨_, _, _, _, hp', -⟩ :=
    execIn_latched_cases ht
  · simp [hp] at hp'
  · refine ⟨_, runIn_done hhost rfl _, rfl, ?_⟩
    rw [process, hm]
    exact (abort_aborted ..).endedAs _
  · rw [process_eq_foldFrom hs hp hm]
    exact runIn_proc_endedAs (hs.execIn_keeps ht) hhost rfl (Nat.zero_add _) ((blocksFrom_congr hin.ibuf ..).trans hb)
  all_goals simp [hp] at hp'

/-- Settles O40: in any environment, and so for the machine, whose run is the one in its own. -/
theorem callRunsAsTheWholeCallFunction : Obligations.CallRunsAsTheWholeCallFunction := by
  refine ⟨fun e s blocks => runIn_call_endedAs, fun s blocks hs hh hp hb hiv => ?_⟩
  rw [run_eq]
  exact runIn_call_endedAs hs hh hp hb hiv

/-! ### What a call leaves behind does not reach the next (R304) -/

/-- The same state but for the reset count and for bytes of `OBUF` at and above `OLEN`: what two calls that began alike
can still differ in after their INIT step. -/
def State.SameCall (s u : State) : Prop :=
  ∃ obuf epoch, u = { s with obuf := obuf, epoch := epoch } ∧ ∀ k < s.olen, cellRead obuf k = cellRead s.obuf k

/-- Two outcomes of one kind: next states of the same call, or the same fault or refusal. -/
inductive SameOutcome : Out → Out → Prop
  | next {s u : State} (h : s.SameCall u) : SameOutcome (.next s) (.next u)
  | fault (r : Fault) : SameOutcome (.fault r) (.fault r)
  | refused (r : Refusal) : SameOutcome (.refused r) (.refused r)

section sameCall

variable {s u : State} (h : s.SameCall u)

include h

theorem State.SameCall.cmd : u.cmd = s.cmd := by obtain ⟨_, _, rfl, -⟩ := h; rfl
theorem State.SameCall.nblk : u.nblk = s.nblk := by obtain ⟨_, _, rfl, -⟩ := h; rfl
theorem State.SameCall.emode : u.emode = s.emode := by obtain ⟨_, _, rfl, -⟩ := h; rfl
theorem State.SameCall.phase : u.phase = s.phase := by obtain ⟨_, _, rfl, -⟩ := h; rfl
theorem State.SameCall.bidx : u.bidx = s.bidx := by obtain ⟨_, _, rfl, -⟩ := h; rfl
theorem State.SameCall.olen : u.olen = s.olen := by obtain ⟨_, _, rfl, -⟩ := h; rfl
theorem State.SameCall.err : u.err = s.err := by obtain ⟨_, _, rfl, -⟩ := h; rfl
theorem State.SameCall.status : u.status = s.status := by obtain ⟨_, _, rfl, -⟩ := h; rfl
theorem State.SameCall.host : u.host = s.host := by obtain ⟨_, _, rfl, -⟩ := h; rfl

/-- The same call has the same result: its output stream lies below `OLEN`. -/
theorem State.SameCall.result {e : Env} (ho : s.OutputInv e) : u.result e = s.result e := by
  obtain ⟨obuf, epoch, rfl, hbytes⟩ := h
  have hout : State.output e { s with obuf := obuf, epoch := epoch } = s.output e :=
    output_congr rfl ho.outputWritten hbytes
  simp [State.result, hout]

/-- A verdict does the same to two states of the same call: it appends the same bytes at the same place. -/
theorem State.SameCall.applyRun (e : Env) (r : EngineRun) :
    (applyRun e r s).SameCall (applyRun e r u) := by
  obtain ⟨obuf, epoch, rfl, hbytes⟩ := h
  unfold Machine.applyRun
  cases r.verdict with
  | raise cause => exact ⟨obuf, epoch, rfl, nofun⟩
  | ok out next =>
    refine ⟨writeBytes obuf s.olen out, epoch, by cases next <;> rfl, fun k hk => ?_⟩
    have hk' : k < s.olen + out.length := by simpa using hk
    simp only [State.advance_obuf, State.chainTo_obuf, State.append_obuf, State.logEvents_obuf, State.logEvents_olen,
      cellRead_writeBytes]
    split
    · rfl
    · exact hbytes k (by omega)

/-- A per-block step ends alike on two states of the same call. -/
theorem State.SameCall.blockStep (e : Env)
    (engine : Env → Block → Block → EngineRun) :
    SameOutcome (blockStep e engine s) (blockStep e engine u) := by
  have hrun := h.applyRun e
  obtain ⟨obuf, epoch, rfl, -⟩ := h
  have hread : State.blockRead e { s with obuf := obuf, epoch := epoch } s.bidx = s.blockRead e s.bidx := rfl
  simp only [Machine.blockStep, hread]
  cases s.blockRead e s.bidx with
  | unwritten => exact .refused _
  | reserved => exact .next ⟨obuf, epoch, rfl, nofun⟩
  | block b => exact .next (hrun _)

/-- Once the INIT step is past, the sequencer's step ends alike on two states of the same call. -/
theorem State.SameCall.execIn (hp : s.phase ≠ .init) (e : Env) (i : Instr) :
    SameOutcome (execIn e i s) (execIn e i u) := by
  have hbidx := h.bidx
  have hnblk := h.nblk
  cases hs : s.phase with
  | init => exact absurd hs hp
  | idle =>
    rw [execIn_waits (.inl hs), execIn_waits (.inl (h.phase.trans hs))]
    exact .next h
  | done =>
    rw [execIn_waits (.inr hs), execIn_waits (.inr (h.phase.trans hs))]
    exact .next h
  | proc =>
    have hu : u.phase = .proc := h.phase.trans hs
    obtain hlt | heq | hgt := Nat.lt_trichotomy s.bidx s.nblk
    · rw [execIn_proc_block i hs hlt, execIn_proc_block i hu (by omega), h.emode]
      exact h.blockStep e _
    · rw [execIn_proc_finish i hs heq, execIn_proc_finish i hu (by omega)]
      obtain ⟨obuf, epoch, rfl, hbytes⟩ := h
      exact .next ⟨obuf, epoch, rfl, hbytes⟩
    · rw [execIn_proc_beyond i hs hgt, execIn_proc_beyond i hu (by omega)]
      exact .fault _

end sameCall

/-- Runs whose first steps end alike end alike, where the runs from the next states do. -/
theorem SameOutcome.runIn_succ {e : Env} {s u : State} {k : Nat} (h : SameOutcome (stepIn e s) (stepIn e u))
    (hrun : ∀ t v, stepIn e s = .next t → t.SameCall v → SameOutcome (runIn e k t) (runIn e k v)) :
    SameOutcome (runIn e (k + 1) s) (runIn e (k + 1) u) := by
  simp only [runIn]
  generalize stepIn e s = a at h hrun
  generalize stepIn e u = b at h
  cases h with
  | next h => exact hrun _ _ rfl h
  | fault r => exact .fault r
  | refused r => exact .refused r

/-- Past the INIT step, runs from two states of the same call end alike. -/
theorem State.SameCall.runIn {e : Env} {s u : State} (h : s.SameCall u) (hh : s.host = []) (hp : s.phase ≠ .init)
    (k : Nat) : SameOutcome (runIn e k s) (runIn e k u) := by
  induction k generalizing s u with
  | zero => exact .next h
  | succ k ih =>
    refine SameOutcome.runIn_succ ?_ fun t v ht htv => ?_
    · rw [stepIn_of_host_nil hh, stepIn_of_host_nil (h.host.trans hh), h.cmd]
      exact h.execIn hp e _
    · rw [stepIn_of_host_nil hh] at ht
      exact ih htv ((sequencerStep_sameInputs ht).host.trans hh) (execIn_leaves_init ht)

/-- The INIT step of a legal command, whatever its mode: refused only where it reads an unwritten `IV`. -/
theorem initLegal_eq_ite (e : Env) (m : Mode) (ivp : Bool) (s : State) :
    initLegal e m ivp s =
      if effectiveMode m ivp ≠ .plain ∧ s.ivUnwritten ≠ [] then .refused .neverWrittenInput
      else .next (s.selected e m ivp) := by
  split
  · next h => exact initLegal_neverWritten h.1 h.2
  · next h =>
    cases he : effectiveMode m ivp with
    | plain => simp [initLegal, he, s.selected_of_plain he]
    | _ =>
      have hiv : s.ivRead = some s.iv := State.ivRead_eq_some (by simpa [he] using h)
      simp [initLegal, he, hiv, s.selected_of_chaining (by simp [he] : effectiveMode m ivp ≠ .plain)]

/-- The same state but for `EMODE`, `BIDX` and `OLEN`, which START leaves as the calls before made them and the INIT
step writes, for the bytes of `OBUF`, and for the reset count. -/
def State.BeginsAlike (s u : State) : Prop :=
  ∃ emode bidx obuf olen epoch,
    u = { s with emode := emode, bidx := bidx, obuf := obuf, olen := olen, epoch := epoch }

/-- What the invariant says of the core between START and the INIT step (R29, R35, R36, R122). -/
theorem State.Inv.init_fields {e : Env} {s : State} (h : s.Inv e) (hp : s.phase = .init) :
    s.chain = List.replicate e.bs 0x00#8 ∧ s.clen = 0 ∧ s.ok = false ∧ s.fail = false ∧ s.dgr = false ∧
      s.err = none ∧ s.xlog = [] := by
  obtain ⟨hchain, hclen⟩ := h.chain.discarded (.inl (by simp [hp]))
  obtain ⟨hok, hfail⟩ := h.status.elseNone (by simp [hp])
  have herr : s.err = none := h.status.err_eq_none (by simp [hp])
  exact ⟨hchain, hclen, hok, hfail, h.control.dgrOf.trans (if_pos hp), herr, h.log.xlogEmpty (.inl hp)⟩

/-- Two states in INIT that meet the invariant begin the same call alike, where command and inputs agree. -/
theorem State.Inv.beginsAlike {e : Env} {s u : State} (hs : s.Inv e) (hu : u.Inv e) (hsp : s.phase = .init)
    (hup : u.phase = .init) (hc : u.cmd = s.cmd) (hi : u.iv = s.iv) (hm : u.ivUnwritten = s.ivUnwritten)
    (hn : u.nblk = s.nblk) (hb : u.ibuf = s.ibuf) (hh : u.host = s.host) : s.BeginsAlike u := by
  obtain ⟨hchain, hclen, hok, hfail, hdgr, herr, hlog⟩ := hs.init_fields hsp
  obtain ⟨hchain', hclen', hok', hfail', hdgr', herr', hlog'⟩ := hu.init_fields hup
  refine ⟨u.emode, u.bidx, u.obuf, u.olen, u.epoch, ?_⟩
  cases s
  cases u
  simp_all

/-- The INIT step ends alike on two states that begin a call alike. -/
theorem State.BeginsAlike.execIn {e : Env} {s u : State} (h : s.BeginsAlike u) (hsp : s.phase = .init)
    (hup : u.phase = .init) (i : Instr) : SameOutcome (execIn e i s) (execIn e i u) := by
  cases hm : instrMode i with
  | none =>
    rw [execIn_init_illegal hsp hm, execIn_init_illegal hup hm]
    obtain ⟨emode, bidx, obuf, olen, epoch, rfl⟩ := h
    exact .next ⟨obuf, epoch, rfl, nofun⟩
  | some m =>
    rw [execIn_init_legal hsp hm, execIn_init_legal hup hm, initLegal_eq_ite, initLegal_eq_ite]
    obtain ⟨emode, bidx, obuf, olen, epoch, rfl⟩ := h
    simp only
    split
    · exact .refused _
    · exact .next ⟨obuf, epoch, rfl, nofun⟩

/-- Settles O43: the INIT steps end alike, so the runs do, and the same call has the same result. -/
theorem nothingLeaksBetweenCalls : Obligations.NothingLeaksBetweenCalls := by
  intro s u k hs hu hsh huh hsp hup hc hi hm hn hb
  simp only [run_eq]
  cases k with
  | zero => exact ⟨u, rfl, hup.trans hsp.symm, fun hd => by simp [hsp] at hd⟩
  | succ k =>
    have hbegin := hs.beginsAlike hu hsp hup hc hi hm hn hb (huh.trans hsh.symm)
    have hrun : SameOutcome (runIn Config.env (k + 1) s) (runIn Config.env (k + 1) u) := by
      refine SameOutcome.runIn_succ ?_ fun t v ht htv => ?_
      · rw [stepIn_of_host_nil hsh, stepIn_of_host_nil huh, hc]
        exact hbegin.execIn hsp hup _
      · rw [stepIn_of_host_nil hsh] at ht
        exact htv.runIn ((sequencerStep_sameInputs ht).host.trans hsh) (execIn_leaves_init ht) k
    have hinv := fun t => hs.runIn_keeps (k := k + 1) (t := t)
    generalize runIn Config.env (k + 1) s = a at hrun hinv
    generalize runIn Config.env (k + 1) u = b at hrun
    cases hrun with
    | next h => exact ⟨_, rfl, h.phase, fun _ => ⟨h.result (hinv _ rfl).output, h.err, h.bidx, h.olen, h.status⟩⟩
    | fault r => rfl
    | refused r => rfl

end Sys2Proof.Machine
end

section
/-! SUPPORT. Whole calls through the whole-call function: the answers of the Plain engine, and the round trips of
CBC and CFB. -/

namespace Sys2Proof.Machine

/-! ### The whole call of the Plain engine (R174) -/

section plainCall

variable {e : Env} {d : TDir} {b r : Block}

theorem plainBlock_verdict_of_fail (hx : e.xform d b = .fail) :
    (plainBlock e d b).verdict = .raise .transformFailure := by
  simp [plainBlock, hx]

theorem plainBlock_verdict_of_gt (hx : e.xform d b = .ok r) (hr : r.length > e.bs) :
    (plainBlock e d b).verdict = .raise .lengthMismatch := by
  simp [plainBlock, hx, hr]

theorem plainBlock_verdict_of_le (hx : e.xform d b = .ok r) (hr : r.length ≤ e.bs) :
    (plainBlock e d b).verdict = .ok r none := by
  simp [plainBlock, hx, hr.not_gt]

/-- The fold of the Plain engine appends the answers to the blocks that are answered, and goes on behind them. -/
theorem processFrom_plain_append {before answers : List Block} (hb : ∀ b ∈ before, b.length ≤ e.bs)
    (hx : before.map (e.xform d) = answers.map .ok) (hr : ∀ r ∈ answers, r.length ≤ e.bs) (chain : Block) (idx : Nat)
    (acc : Block) (rest : List Block) :
    processFrom e (fun e _ => plainBlock e d) chain idx acc (before ++ rest) =
      processFrom e (fun e _ => plainBlock e d) chain (idx + before.length) (acc ++ answers.flatten) rest := by
  induction before generalizing answers idx acc with
  | nil =>
    obtain rfl : answers = [] := by simpa using hx.symm
    simp
  | cons b before ih =>
    cases answers with
    | nil => cases hx
    | cons r answers =>
      simp only [List.map_cons, List.cons.injEq, List.forall_mem_cons] at hx hb hr
      rw [List.cons_append, processFrom_cons_ok hb.1 (plainBlock_verdict_of_le hx.1 hr.1), Option.getD_none,
        ih hb.2 hx.2 hr.2, Nat.add_right_comm idx 1]
      simp [Nat.add_assoc]

/-- Blocks that are each answered have a list of answers. -/
theorem exists_answers {before : List Block} (h : ∀ x ∈ before, ∃ r, e.xform d x = .ok r ∧ r.length ≤ e.bs) :
    ∃ answers : List Block, before.map (e.xform d) = answers.map .ok ∧ ∀ r ∈ answers, r.length ≤ e.bs := by
  induction before with
  | nil => exact ⟨[], rfl, List.forall_mem_nil _⟩
  | cons x before ih =>
    obtain ⟨⟨r, hx, hr⟩, hrest⟩ := List.forall_mem_cons.1 h
    obtain ⟨answers, hmap, hle⟩ := ih hrest
    exact ⟨r :: answers, by simp [hx, hmap], List.forall_mem_cons.2 ⟨hr, hle⟩⟩

end plainCall

/-- The two Plain commands without an IV run the fold of the one algorithm in their direction (R170). -/
theorem process_plain (e : Env) (iv : Block) (blocks : List Block) :
    ∀ p ∈ [(0x00#8, TDir.fwd), (0x01#8, TDir.inv)],
      process e p.1 iv blocks = processFrom e (fun e _ => plainBlock e p.2) [] 0 [] blocks := by
  simp only [List.forall_mem_cons]
  exact ⟨rfl, rfl, List.forall_mem_nil _⟩

/-- Settles O44: the answered blocks are appended, and the first other one ends the call. -/
theorem plainCallConcatenatesTheAnswers : Obligations.PlainCallConcatenatesTheAnswers := by
  intro e iv blocks p hp hlen
  rw [process_plain e iv blocks p hp]
  refine ⟨fun answers hx hr => ?_, fun before b after hblocks hbefore => ?_⟩
  · have happend := processFrom_plain_append hlen hx hr [] 0 [] []
    rw [List.append_nil] at happend
    rw [happend]
    rfl
  · subst hblocks
    rw [List.forall_mem_append, List.forall_mem_cons] at hlen
    obtain ⟨hlb, hb, -⟩ := hlen
    obtain ⟨answers, hx, hr⟩ := exists_answers hbefore
    rw [processFrom_plain_append hlb hx hr, Nat.zero_add]
    exact ⟨fun hf => processFrom_cons_raise hb (plainBlock_verdict_of_fail hf) .., fun r hok hgt =>
      processFrom_cons_raise hb (plainBlock_verdict_of_gt hok hgt) ..⟩

/-! ### The round trips (R204, R236) -/

/-- From any full chaining state, `enc` answers this block with one of its length and chains it, and `dec` answers that
with the block and chains the same. -/
def UndoneBy (e : Env) (enc dec : Env → Block → Block → EngineRun) (b : Block) : Prop :=
  ∀ chain : Block, chain.length = e.bs → ∃ c : Block, c.length = b.length ∧
    (enc e chain b).verdict = .ok c (some c) ∧ (dec e chain c).verdict = .ok b (some c)

/-- Both directions of CBC see one chaining state, so the inverse transform and a second XOR undo a full block. -/
theorem undoneBy_cbc {e : Env} (hf : ForwardTotal e) (hi : InverseUndoes e) {b : Block} (hb : b.length = e.bs) :
    UndoneBy e cbcEncBlock cbcDecBlock b := by
  intro chain hchain
  have hx : (xorPrefix b chain b.length).length = e.bs := by
    rw [xorPrefix_length _ _ _ le_rfl (by omega), hb]
  obtain ⟨c, hc, hcl⟩ := hf _ hx
  refine ⟨c, by omega, ?_, ?_⟩
  · rw [cbcEncBlock_verdict_of_le (by omega), hc]
    exact if_neg hcl.le.not_gt
  · rw [cbcDecBlock_verdict_of_length_eq (hi _ _ hx hc) (by omega), hchain, ← hb,
      xorPrefix_xorPrefix b chain b.length le_rfl (by omega), List.take_length]

/-- Both directions of CFB make one keystream, so a second XOR undoes any block. -/
theorem undoneBy_cfb {e : Env} (hf : ForwardTotal e) {b : Block} (hb : b.length ≤ e.bs) :
    UndoneBy e cfbEncBlock cfbDecBlock b := by
  intro chain hchain
  obtain ⟨k, hk, hkl⟩ := hf chain hchain
  have hc : (xorPrefix b k b.length).length = b.length := xorPrefix_length _ _ _ le_rfl (by omega)
  refine ⟨xorPrefix b k b.length, hc, ?_, ?_⟩
  · exact cfbBlock_verdict_of_fit hk hkl.le (by omega)
  · have hdec := cfbBlock_verdict_of_fit (b := xorPrefix b k b.length) (next := fun _ => xorPrefix b k b.length) hk
      hkl.le (by omega)
    rw [hc, xorPrefix_xorPrefix b k b.length le_rfl (by omega), List.take_length] at hdec
    exact hdec

/-- Where each block is undone and all but the last are full, the whole call is: a full block leaves a full chaining
state, the same in both directions. -/
theorem processFrom_roundTrip {e : Env} {enc dec : Env → Block → Block → EngineRun} {blocks : List Block}
    (hwf : WellFormedBlocks e blocks) (hu : ∀ b ∈ blocks, UndoneBy e enc dec b) {chain : Block}
    (hchain : chain.length = e.bs) :
    ∃ cs : List Block, cs.map List.length = blocks.map List.length ∧
      (∀ idx acc, processFrom e enc chain idx acc blocks = .present (acc ++ cs.flatten)) ∧
      ∀ idx acc, processFrom e dec chain idx acc cs = .present (acc ++ blocks.flatten) := by
  obtain ⟨hfull, hle⟩ := hwf
  induction blocks generalizing chain with
  | nil => exact ⟨[], rfl, by simp [processFrom], by simp [processFrom]⟩
  | cons b rest ih =>
    rw [List.forall_mem_cons] at hu hle
    obtain ⟨c, hcl, henc, hdec⟩ := hu.1 chain hchain
    have hcle : c.length ≤ e.bs := hcl ▸ hle.1
    cases rest with
    | nil =>
      refine ⟨[c], by simp [hcl], fun idx acc => ?_, fun idx acc => ?_⟩
      · rw [processFrom_cons_ok hle.1 henc]
        simp [processFrom]
      · rw [processFrom_cons_ok hcle hdec]
        simp [processFrom]
    | cons b' rest =>
      rw [List.dropLast_cons_cons, List.forall_mem_cons] at hfull
      obtain ⟨cs, hcs, hencs, hdecs⟩ := ih hu.2 (hcl.trans hfull.1) hfull.2 hle.2
      refine ⟨c :: cs, by simp [hcl, hcs], fun idx acc => ?_, fun idx acc => ?_⟩
      · simp [processFrom_cons_ok hle.1 henc, hencs]
      · simp [processFrom_cons_ok hcle hdec, hdecs]

/-- The two commands that keep the CBC mode run the fold of the CBC engine. -/
theorem process_cbc (e : Env) (iv : Block) (blocks : List Block) :
    process e 0x0A#8 iv blocks = processFrom e cbcEncBlock iv 0 [] blocks ∧
      process e 0x0B#8 iv blocks = processFrom e cbcDecBlock iv 0 [] blocks := ⟨rfl, rfl⟩

/-- Settles O46: full blocks are well-formed, and CBC undoes each. -/
theorem cbcRoundTrip : Obligations.CbcRoundTrip := by
  intro e iv blocks hiv hfull hf hi
  have hwf : WellFormedBlocks e blocks :=
    ⟨fun b hb => hfull b (List.mem_of_mem_dropLast hb), fun b hb => (hfull b hb).le⟩
  obtain ⟨cs, hlen, henc, hdec⟩ := processFrom_roundTrip hwf (fun b hb => undoneBy_cbc hf hi (hfull b hb)) hiv
  refine ⟨cs, (process_cbc ..).1.trans (henc 0 []), by simpa using congrArg List.length hlen, fun c hc => ?_,
    (process_cbc ..).2.trans (hdec 0 [])⟩
  have hmem : c.length ∈ blocks.map List.length := hlen ▸ List.mem_map_of_mem hc
  obtain ⟨b, hb, hbc⟩ := List.mem_map.1 hmem
  exact hbc.symm.trans (hfull b hb)

/-- Settles O47: CFB undoes every block, short or full. -/
theorem cfbRoundTrip : Obligations.CfbRoundTrip := by
  intro e iv blocks hiv hwf hf
  obtain ⟨cs, hlen, henc, hdec⟩ := processFrom_roundTrip hwf (fun b hb => undoneBy_cfb hf (hwf.2 b hb)) hiv
  exact ⟨cs, (process_cfb ..).1.trans (henc 0 []), hlen, (process_cfb ..).2.trans (hdec 0 [])⟩

end Sys2Proof.Machine
end
